-- ==== Sys2Proof/Word.lean ====
section
/-! DEFINITION. The machine's basic data (00_scope.md R6 to R8, 10_state.md R20): a 32-bit unsigned
word, a byte, a general register's index, and the three bytes of an instruction before decoding. -/

namespace Sys2Proof

/-- A 32-bit value (XLEN = 32, R6). Arithmetic on it wraps modulo 2^32 (R8). -/
abbrev Word := BitVec 32

/-- A byte, the smallest addressable unit of memory (R28). -/
abbrev Byte := BitVec 8

/-- The index of a general register, 0 to 7 (NREG = 8, R6, R20). No other index can be written down. -/
abbrev Reg := Fin 8

/-- The three bytes of an instruction as fetched (30_encoding.md R61), not decoded yet:
`op` at ia, `b1` at ia+1, `b2` at ia+2. Any three bytes at all. -/
structure RawInsn where
  op : Byte
  b1 : Byte
  b2 : Byte
  deriving DecidableEq, Repr

end Sys2Proof
end

