-- ==== Sys2Proof/Config.lean ====
section
/-! DEFINITION. The implementation parameters of 00_scope.md R6: the types a parameter ranges over, the
fixed values, and the one free value, INPUT_ORACLE. The default OPCODE_MAP stands in Decode.lean
(`defaultOpcodeMap`), the default FLAGS_LAYOUT and CMP_OVERFLOW_MODE in Machine/Flags.lean. -/

namespace Sys2Proof

/-- The handler an opcode selects: the 21 instructions of R3, named as R66 names them. -/
inductive Mnemonic where
  | ADD | SUB | MUL | DIV
  | LOAD | STORE
  | INPUT | OUTPUT
  | AND | OR | XOR | NOT | SHL | SHR
  | CMP
  | JMP | JE | JNE | JG | JL
  | HALT
  deriving DecidableEq, Repr

/-- OPCODE_MAP (R6, R29, R65), an OPEN parameter: the opcode table as its rows, one byte and the
handler it selects each. It is a constant of the engine and no part of its state. -/
abbrev OpcodeMap := List (Byte × Mnemonic)

/-- The handler the table gives an opcode byte, none where the byte is not in its domain (R71). -/
def OpcodeMap.handler (m : OpcodeMap) (op : Byte) : Option Mnemonic :=
  (m.find? fun row => row.1 == op).map Prod.snd

/-- The opcode byte of a mnemonic, none where the table has no row for it. -/
def OpcodeMap.code (m : OpcodeMap) (k : Mnemonic) : Option Byte :=
  (m.find? fun row => row.2 == k).map Prod.fst

/-- CMP_OVERFLOW_MODE (R6, 44_compare.md R150): which overflow the O flag reports. -/
inductive OverflowMode where
  | unsignedBorrow
  | signed
  deriving DecidableEq, Repr

/-- The parameters of R6 that a step and a run take as an argument: OPCODE_MAP, which is OPEN, and
CMP_OVERFLOW_MODE, which has two values. Both are constants of the engine and no part of its state. -/
structure Params where
  opcodeMap : OpcodeMap
  overflowMode : OverflowMode
  deriving DecidableEq, Repr

/-- FLAGS_LAYOUT (R6, 10_state.md R24): the bit of each flag in the flags byte. -/
structure FlagsLayout where
  z : Fin 8
  n : Fin 8
  o : Fin 8
  deriving DecidableEq, Repr

/-- One I/O event of a run (42_io.md R122). -/
inductive IoEvent where
  /-- an INPUT received this value -/
  | received (v : Word)
  /-- an OUTPUT sent this value -/
  | sent (v : Word)
  deriving DecidableEq, Repr

/-- MEM_SIZE: the memory's capacity in bytes (R6, R28). -/
abbrev Config.memSize : Nat := 65536

/-- What a byte of memory reads as that nothing has written: memory is "zero-initialized" (R28). -/
abbrev Config.unlistedByte : Byte := 0

/-- FLAGS_RESET: the flags byte after reset (R6, 70_reset_and_hazards.md R230; decision D5). Log 13. -/
def Config.flagsReset : Byte := 0

/-- INPUT_ORACLE (R6, 42_io.md R120; decision D16), an OPEN parameter and a FREE VALUE: what an
unconstrained device answers to an INPUT, given the I/O events so far. It has no body: nothing is
known of it. Log 2. -/
opaque Config.inputOracle : List IoEvent → Word

end Sys2Proof
end

