-- ==== Sys2Proof/Syntax.lean ====
section
/-! DEFINITION. The instructions (30_encoding.md R60 to R64): one constructor per row of
spec/opcode_table.json. Every instruction carries both register operands, r1 then r2, the unused ones
too (R62), so that no bit of an encoding is dropped. -/

namespace Sys2Proof

/-- One decoded instruction: the handler and its two register indices (R62, R64). -/
inductive Instr where
  | add (r1 r2 : Reg)
  | sub (r1 r2 : Reg)
  | mul (r1 r2 : Reg)
  | div (r1 r2 : Reg)
  | load (r1 r2 : Reg)
  | store (r1 r2 : Reg)
  | input (r1 r2 : Reg)
  | output (r1 r2 : Reg)
  | and (r1 r2 : Reg)
  | or (r1 r2 : Reg)
  | xor (r1 r2 : Reg)
  | not (r1 r2 : Reg)
  | shl (r1 r2 : Reg)
  | shr (r1 r2 : Reg)
  | cmp (r1 r2 : Reg)
  | jmp (r1 r2 : Reg)
  | je (r1 r2 : Reg)
  | jne (r1 r2 : Reg)
  | jg (r1 r2 : Reg)
  | jl (r1 r2 : Reg)
  | halt (r1 r2 : Reg)
  deriving DecidableEq, Repr

end Sys2Proof
end

