-- ==== Sys2Proof/WellFormed.lean ====
section
/-! DEFINITION. What is well formed: an opcode map (30_encoding.md R65), a flags layout (10_state.md
R24), a three-byte instruction word (R74), and a decoded instruction under a map. A register index above
7 cannot be built in `Instr` (its operands are `Reg`), so that check is on the word. -/

namespace Sys2Proof

/-- R65: one row for exactly 21 bytes, no byte twice, no mnemonic twice, every byte in 0x40 to 0xFF.
With 21 mnemonics in all, every mnemonic then has its byte. -/
abbrev OpcodeMap.WellFormed (m : OpcodeMap) : Prop :=
  m.length = 21 ∧ (m.map Prod.fst).Nodup ∧ (m.map Prod.snd).Nodup ∧ ∀ row ∈ m, 0x40 ≤ row.1.toNat

/-- The three flags stand at three different bits (R24). -/
abbrev FlagsLayout.WellFormed (l : FlagsLayout) : Prop :=
  l.z ≠ l.n ∧ l.z ≠ l.o ∧ l.n ≠ l.o

/-- The first kind of R74, a legal word: its opcode is in the map and both operand bytes are at most 7. -/
abbrev RawInsn.WellFormed (m : OpcodeMap) (w : RawInsn) : Prop :=
  (m.handler w.op).isSome = true ∧ w.b1.toNat < 8 ∧ w.b2.toNat < 8

/-- The handler of an instruction. -/
def Instr.mnemonic : Instr → Mnemonic
  | .add _ _ => .ADD
  | .sub _ _ => .SUB
  | .mul _ _ => .MUL
  | .div _ _ => .DIV
  | .load _ _ => .LOAD
  | .store _ _ => .STORE
  | .input _ _ => .INPUT
  | .output _ _ => .OUTPUT
  | .and _ _ => .AND
  | .or _ _ => .OR
  | .xor _ _ => .XOR
  | .not _ _ => .NOT
  | .shl _ _ => .SHL
  | .shr _ _ => .SHR
  | .cmp _ _ => .CMP
  | .jmp _ _ => .JMP
  | .je _ _ => .JE
  | .jne _ _ => .JNE
  | .jg _ _ => .JG
  | .jl _ _ => .JL
  | .halt _ _ => .HALT

/-- An instruction has an encoding under a map: the map has an opcode for its handler. Under a map that
meets R65 every instruction has. -/
abbrev Instr.WellFormed (m : OpcodeMap) (i : Instr) : Prop :=
  (m.code i.mnemonic).isSome = true

end Sys2Proof
end

