-- ==== Sys2Proof/Decode.lean ====
section
/-! DEFINITION. Decoding and encoding (30_encoding.md R60 to R74), the default OPCODE_MAP (R66), and the
assembly statement's encoding (R80 to R82). The decoder is total: three bytes give an instruction or are
rejected by name. -/

namespace Sys2Proof

/-- The default OPCODE_MAP (R66; the spec's own choice, decision D2). Log 1. -/
def defaultOpcodeMap : OpcodeMap :=
  [(0x40, .ADD), (0x41, .SUB), (0x42, .MUL), (0x43, .DIV)] ++
  [(0x50, .LOAD), (0x51, .STORE)] ++
  [(0x60, .INPUT), (0x61, .OUTPUT)] ++
  [(0x70, .AND), (0x71, .OR), (0x72, .XOR), (0x73, .NOT), (0x74, .SHL), (0x75, .SHR)] ++
  [(0x80, .CMP)] ++
  [(0x90, .JMP), (0x91, .JE), (0x92, .JNE), (0x93, .JG), (0x94, .JL)] ++
  [(0xFF, .HALT)]

/-- The handler with its two register indices (R73). -/
def Mnemonic.instr : Mnemonic → Reg → Reg → Instr
  | .ADD => .add
  | .SUB => .sub
  | .MUL => .mul
  | .DIV => .div
  | .LOAD => .load
  | .STORE => .store
  | .INPUT => .input
  | .OUTPUT => .output
  | .AND => .and
  | .OR => .or
  | .XOR => .xor
  | .NOT => .not
  | .SHL => .shl
  | .SHR => .shr
  | .CMP => .cmp
  | .JMP => .jmp
  | .JE => .je
  | .JNE => .jne
  | .JG => .jg
  | .JL => .jl
  | .HALT => .halt

/-- The two register operands, r1 then r2, unused ones included (R62). -/
def Instr.operands : Instr → Reg × Reg
  | .add r1 r2 | .sub r1 r2 | .mul r1 r2 | .div r1 r2 => (r1, r2)
  | .load r1 r2 | .store r1 r2 | .input r1 r2 | .output r1 r2 => (r1, r2)
  | .and r1 r2 | .or r1 r2 | .xor r1 r2 | .not r1 r2 | .shl r1 r2 | .shr r1 r2 => (r1, r2)
  | .cmp r1 r2 | .jmp r1 r2 | .je r1 r2 | .jne r1 r2 | .jg r1 r2 | .jl r1 r2 => (r1, r2)
  | .halt r1 r2 => (r1, r2)

/-- Why three bytes (or fewer) are no instruction (R74). -/
inductive DecodeError where
  /-- the opcode byte is not in the map (R71) -/
  | unknownOpcode (op : Byte)
  /-- the opcode is known and an operand byte is 8 or more (R72) -/
  | illegalOperand (b1 b2 : Byte)
  /-- fewer than three bytes: an instruction is exactly three (R60) -/
  | truncated
  deriving DecidableEq, Repr

/-- An operand byte's register index; none for a byte of 8 or more (R72). -/
def operandReg (b : Byte) : Option Reg :=
  if h : b.toNat < 8 then some ⟨b.toNat, h⟩ else none

/-- The byte that names a register in an encoding (R61). -/
def operandByte (r : Reg) : Byte := BitVec.ofNat 8 r.val

/-- Dispatch (R71), then the operand check (R72), under a given OPCODE_MAP: the opcode is looked up
first, so an unknown opcode is reported whatever the operand bytes are. -/
def decodeUnder (m : OpcodeMap) (w : RawInsn) : Except DecodeError Instr :=
  match m.handler w.op with
  | none => .error (.unknownOpcode w.op)
  | some k =>
    match operandReg w.b1, operandReg w.b2 with
    | some r1, some r2 => .ok (k.instr r1 r2)
    | _, _ => .error (.illegalOperand w.b1 w.b2)

/-- Decoding under the default map. -/
def decode (w : RawInsn) : Except DecodeError Instr := decodeUnder defaultOpcodeMap w

/-- Decoding from any bytes: the instruction at their head and the bytes after it (R60, R61). -/
def decodeBytesUnder (m : OpcodeMap) : List Byte → Except DecodeError (Instr × List Byte)
  | op :: b1 :: b2 :: rest => (decodeUnder m ⟨op, b1, b2⟩).map fun i => (i, rest)
  | _ => .error .truncated

/-- The three bytes of an instruction under a map (R61, R82); none where the map has no opcode for it. -/
def encodeUnder (m : OpcodeMap) (i : Instr) : Option RawInsn :=
  (m.code i.mnemonic).map fun op => ⟨op, operandByte i.operands.1, operandByte i.operands.2⟩

/-- Encoding under the default map. -/
def encode (i : Instr) : Option RawInsn := encodeUnder defaultOpcodeMap i

/-- The three bytes at ia, ia+1, ia+2 (R61). -/
def RawInsn.bytes (w : RawInsn) : List Byte := [w.op, w.b1, w.b2]

/-- The bytes, lowest address first, of the table's 24-bit value `insn`: opcode in bits 23..16, r1 in
bits 15..8, r2 in bits 7..0 (R61). Bits at and above `nbits` are 0. Log 21. -/
def layoutWord (nbits w : Nat) : RawInsn :=
  let insn := BitVec.ofNat 24 (w % 2 ^ nbits)
  ⟨insn.extractLsb' 16 8, insn.extractLsb' 8 8, insn.extractLsb' 0 8⟩

/-- The instruction the decoder reads from a word numbered as spec/opcode_table.json numbers it. -/
def decodeTableWord (nbits w : Nat) : Option Instr :=
  match decodeBytesUnder defaultOpcodeMap (layoutWord nbits w).bytes with
  | .ok (i, _) => some i
  | .error _ => none

/-- How many registers an assembly statement of a mnemonic names (R80). -/
def Mnemonic.operandCount : Mnemonic → Nat
  | .ADD | .SUB | .MUL | .DIV | .AND | .OR | .XOR | .SHL | .SHR | .CMP | .LOAD | .STORE => 2
  | .NOT | .INPUT | .OUTPUT | .JMP | .JE | .JNE | .JG | .JL => 1
  | .HALT => 0

/-- The instruction of an assembly statement: a mnemonic and the registers written after it, an
omitted one encoded as 0x00; a one-operand instruction may name its unused register (R80, R82). Log 24. -/
def assemble (k : Mnemonic) (regs : List Reg) : Option Instr :=
  match k.operandCount, regs with
  | 2, [a, b] => some (k.instr a b)
  | 1, [a] => some (k.instr a 0)
  | 1, [a, b] => some (k.instr a b)
  | 0, [] => some (k.instr 0 0)
  | _, _ => none

end Sys2Proof
end

