-- ==== Sys2Proof/Machine/State.lean ====
section
/-! DEFINITION. The machine's state as plain data (10_state.md R20 to R34), its value after reset
(70_reset_and_hazards.md R230), and the reasons a step can stop (60_exceptions.md R200 to R206). -/

namespace Sys2Proof.Machine

/-- Memory (R28, R40): the bytes that differ from 0x00, addresses strictly rising. Log 18. -/
abbrev Memory := List Host.Cell

/-- The canonical form: addresses strictly rise, no entry holds what an unlisted address reads as, and
every address is one of the 65536 (R28). -/
abbrev Memory.wf (m : Memory) : Prop :=
  m.Pairwise (fun c d => c.1 < d.1) ∧ ∀ c ∈ m, c.2 ≠ Config.unlistedByte ∧ c.1 < Config.memSize

/-- The one I/O device bound to the port (R30, R120), seen only through what it answers. Log 4. -/
inductive Device where
  /-- an unconstrained device: it answers every INPUT with a value nothing is known of
  (`Config.inputOracle`) -/
  | free
  /-- a device whose answers the environment supplies: those supplied and not taken yet, oldest first.
  While there is none, INPUT waits (R120). -/
  | queued (answers : List Word)
  deriving DecidableEq, Repr

/-- The state (summary table of 10_state.md). -/
structure State where
  /-- the general registers x[0] to x[7] (R20) -/
  regs : Vector Word 8
  /-- the program counter: a byte address, all 32 bits of it (R22, decision D7) -/
  pc : Word
  /-- the flags byte, written by CMP alone (R24, R25) -/
  flags : Byte
  /-- set by HALT, cleared only by reinitialisation (R26) -/
  halted : Bool
  /-- the 65536 bytes of code and data (R28, R40) -/
  mem : Memory
  /-- the device binding and the answers waiting in it (R30, R120) -/
  device : Device
  /-- the I/O events so far, oldest first (R122) -/
  trace : List IoEvent
  deriving DecidableEq, Repr

/-- The state after reset (R230). Log 4 names the device's value and log 5 the trace's. -/
def State.reset : State where
  regs := Vector.replicate 8 0
  pc := 0
  flags := Config.flagsReset
  halted := false
  mem := []
  device := .free
  trace := []

/-- The fatal faults (R200), each with what its record holds (R206). A fault ends the run (R207). -/
inductive Fault where
  /-- Raised by the cycle when the fetched opcode byte `op` is not in the opcode map (R71, R201). Safe:
  the spec's own fault. -/
  | unknownOpcode (op : Byte) (ia : Word)
  /-- Raised by DIV when the divisor register is 0 (R103, R202). Safe: the spec's own fault. -/
  | divisionByZero (ia : Word)
  /-- Raised by a fetch, by LOAD and by STORE when the address given to the memory primitive fails its
  bound check (R70, R110, R111, R203). Safe: the spec's own fault. -/
  | outOfBounds (addr ia : Word)
  /-- Raised by the cycle when an operand byte of a known opcode is 8 or more (R72, R204). Safe: the
  spec's own fault (decision D3, log 8). -/
  | illegalOperand (b1 b2 : Byte) (ia : Word)
  deriving DecidableEq, Repr

/-- Why a step has no successor without being a fault. -/
inductive Refusal where
  /-- Raised by `exec` for an instruction that has no meaning yet. Safe. No arm answers with it. -/
  | notModelled (mnemonic : String)
  /-- Raised by INPUT while the device has not answered: the CORE waits, "stuck, not a fault and not a
  halt" (R120, R238). Safe. Log 3. -/
  | waitingForInput
  deriving DecidableEq, Repr

/-- What a handler or a step answers. -/
abbrev Result := Host.Outcome State Fault Refusal

end Sys2Proof.Machine
end

