-- ==== Sys2Proof/Machine/Ops.lean ====
section
/-! DEFINITION. The named operations over memory, registers, the fault exit and the I/O port
(00_scope.md R9 to R12, 20_memory.md R41 to R47, 42_io.md R120 to R122). -/

namespace Sys2Proof.Machine

/-! ### Memory as data -/

/-- The byte at an address; one that is not listed reads 0x00 (R28). -/
def Memory.get : Memory → Nat → Byte
  | [], _ => Config.unlistedByte
  | c :: rest, a => if c.1 = a then c.2 else Memory.get rest a

/-- A cell put at its place among rising addresses. -/
def Memory.insert : Memory → Host.Cell → Memory
  | [], new => [new]
  | c :: rest, new => if new.1 < c.1 then new :: c :: rest else c :: Memory.insert rest new

/-- The memory with nothing listed at an address. -/
def Memory.erase (m : Memory) (a : Nat) : Memory := m.filter fun c => c.1 != a

/-- One byte overwritten, the canonical form kept: writing what an unlisted address reads as lists
nothing. -/
def Memory.set (m : Memory) (a : Nat) (v : Byte) : Memory :=
  if v = Config.unlistedByte then m.erase a else (m.erase a).insert (a, v)

/-! ### The Memory Unit's four primitives. `none` is a failed bound check, which the caller raises. -/

/-- MemRead(addr, 1) (R41). -/
def readByte (m : Memory) (addr : Word) : Option Byte :=
  if addr.toNat ≥ Config.memSize then none else some (m.get addr.toNat)

/-- MemWrite(addr, 1, v) (R42). -/
def writeByte (m : Memory) (addr : Word) (v : Byte) : Option Memory :=
  if addr.toNat ≥ Config.memSize then none else some (m.set addr.toNat v)

/-- Byte k of a word, byte 0 the least significant (R47). -/
def byteOf (v : Word) (k : Nat) : Byte := v.extractLsb' (8 * k) 8

/-- The word of four bytes, given from the least significant to the most (R43). -/
def wordOfBytes (b0 b1 b2 b3 : Byte) : Word := b3 ++ b2 ++ b1 ++ b0

/-- MemRead(addr, 4): little-endian, with addr + 3 in unbounded integers (R43, decision D8). -/
def readWord (m : Memory) (addr : Word) : Option Word :=
  let a := addr.toNat
  if a + 3 ≥ Config.memSize then none
  else some (wordOfBytes (m.get a) (m.get (a + 1)) (m.get (a + 2)) (m.get (a + 3)))

/-- MemWrite(addr, 4, v): little-endian, checked before any byte is written (R44, decision D13). -/
def writeWord (m : Memory) (addr : Word) (v : Word) : Option Memory :=
  let a := addr.toNat
  if a + 3 ≥ Config.memSize then none
  else some ((((m.set a (byteOf v 0)).set (a + 1) (byteOf v 1)).set (a + 2) (byteOf v 2)).set (a + 3) (byteOf v 3))

/-- Bytes written one after another from an address on (R46). -/
def writeBytes : Memory → Nat → List Byte → Memory
  | m, _, [] => m
  | m, a, b :: rest => writeBytes (m.set a b) (a + 1) rest

/-! ### Registers and the other fields: the one place each is read and written -/

/-- x[r] (R9). -/
def State.x (s : State) (r : Reg) : Word := s.regs[r]

/-- x[r] <- v (R9). -/
def State.setX (s : State) (r : Reg) (v : Word) : State := { s with regs := s.regs.set r v }

/-- pc <- v (R9). -/
def State.setPc (s : State) (v : Word) : State := { s with pc := v }

/-- The whole flags byte is written at once (R25). -/
def State.setFlags (s : State) (v : Byte) : State := { s with flags := v }

/-- halted <- b (R26). -/
def State.setHalted (s : State) (b : Bool) : State := { s with halted := b }

/-- The memory replaced by what a primitive left. -/
def State.setMem (s : State) (m : Memory) : State := { s with mem := m }

/-- The device replaced by what an answer left of it. -/
def State.setDevice (s : State) (d : Device) : State := { s with device := d }

/-- An event appended to the trace (R122). -/
def State.record (s : State) (e : IoEvent) : State := { s with trace := s.trace ++ [e] }

/-! ### The fault exit. There is no trap entry, no handler and no return from one (R212, R213). -/

/-- The instruction address of the running handler: pc holds ia + 3 while it runs (R22). DEDUCED, log 7. -/
def handlerIa (s : State) : Word := s.pc - 3#32

/-- raise F(info) from a handler: the instruction and the run end here, with ia recorded (R11, R206,
R207). -/
def raise (f : Word → Fault) (s : State) : Result := .fault (f (handlerIa s))

/-! ### The I/O port -/

/-- IoInput() (R120): the device's answer and the state after it was taken, the event recorded (R122);
none while the device has not answered. -/
def ioInput (s : State) : Option (Word × State) :=
  match s.device with
  | .free => some (Config.inputOracle s.trace, s.record (.received (Config.inputOracle s.trace)))
  | .queued [] => none
  | .queued (v :: rest) => some (v, (s.setDevice (.queued rest)).record (.received v))

/-- IoOutput(v) (R121): the value is sent, the event recorded (R122). It never waits. -/
def ioOutput (v : Word) (s : State) : State := s.record (.sent v)

end Sys2Proof.Machine
end

