-- ==== Sys2Proof/Machine/Operands.lean ====
section
/-! DEFINITION. The operand forms (30_encoding.md R62 to R64). The only form is the register index; an
operand is a destination, a source, an address register or a jump target. -/

namespace Sys2Proof.Machine

/-- `x[r1] <- f(x[r1], x[r2])`: r1 is destination and first source, r2 the second source (R64). Both are
read before r1 is written. -/
def binaryOp (f : Word → Word → Word) (r1 r2 : Reg) (s : State) : Result :=
  .next (s.setX r1 (f (s.x r1) (s.x r2)))

/-- `x[r1] <- f(x[r1])`: r1 is destination and source, r2 is unused (R64). -/
def unaryOp (f : Word → Word) (r1 : Reg) (s : State) : Result :=
  .next (s.setX r1 (f (s.x r1)))

/-- The effective address of LOAD and STORE: the whole of x[r2] (R110, R111). -/
def effectiveAddress (r2 : Reg) (s : State) : Word := s.x r2

/-- A jump's target: the whole of x[r1], unmasked (R160). -/
def jumpTarget (r1 : Reg) (s : State) : Word := s.x r1

/-- `if c: pc <- x[r1]`; otherwise pc keeps ia + 3 (R165). -/
def jumpIf (c : Bool) (r1 : Reg) (s : State) : Result :=
  .next (if c then s.setPc (jumpTarget r1 s) else s)

end Sys2Proof.Machine
end

