-- ==== Sys2Proof/Machine/Arithmetic.lean ====
section
/-! DEFINITION. ADD, SUB, MUL, DIV (40_arithmetic.md). All four are unsigned; none touches the flags. -/

namespace Sys2Proof.Machine

/-- ADD (R100): the sum modulo 2^32. -/
def execAdd (r1 r2 : Reg) (s : State) : Result := binaryOp (fun a b => a + b) r1 r2 s

/-- SUB (R101): the difference modulo 2^32. -/
def execSub (r1 r2 : Reg) (s : State) : Result := binaryOp (fun a b => a - b) r1 r2 s

/-- MUL (R102): the low 32 bits of the product. -/
def execMul (r1 r2 : Reg) (s : State) : Result := binaryOp (fun a b => a * b) r1 r2 s

/-- DIV (R103): the unsigned quotient rounded down; a zero divisor raises DivisionByZero before any
write. -/
def execDiv (r1 r2 : Reg) (s : State) : Result :=
  if s.x r2 = 0 then raise .divisionByZero s else binaryOp (fun a b => a / b) r1 r2 s

end Sys2Proof.Machine
end

