-- ==== Sys2Proof/Machine/Flags.lean ====
section
/-! DEFINITION. The flags byte (10_state.md R24, R25) and CMP's computation of it (44_compare.md R150). -/

namespace Sys2Proof.Machine

/-- FLAGS_LAYOUT: Z bit 0, N bit 1, O bit 2 (R6, R24; decision D4). Log 12. -/
def flagsLayout : FlagsLayout := ⟨0, 1, 2⟩

/-- The default CMP_OVERFLOW_MODE: the unsigned borrow (R6, R150; decision D6). Log 14. -/
def cmpOverflowMode : OverflowMode := .unsignedBorrow

/-- One flag at its bit, the other seven bits clear. -/
def flagAt (k : Fin 8) (b : Bool) : Byte := (BitVec.ofBool b).setWidth 8 <<< k.val

/-- The three flags packed at a layout's bits, "all other flag bits cleared" (R24, R150). -/
def packFlags (l : FlagsLayout) (z n o : Bool) : Byte := flagAt l.z z ||| flagAt l.n n ||| flagAt l.o o

/-- flags.Z (R9). -/
def State.flagZ (s : State) : Bool := s.flags.getLsbD flagsLayout.z

/-- flags.N (R9). -/
def State.flagN (s : State) : Bool := s.flags.getLsbD flagsLayout.n

/-- flags.O (R9). -/
def State.flagO (s : State) : Bool := s.flags.getLsbD flagsLayout.o

/-- The O flag of `a - b` in either mode of CMP_OVERFLOW_MODE (R150). -/
def subOverflow : OverflowMode → Word → Word → Bool
  | .unsignedBorrow, a, b => a.ult b
  | .signed, a, b => a.msb != b.msb && (a - b).msb != a.msb

/-- The flags byte of `CMP a, b` (R150): Z, N and O of the wrapped difference, bits 7:3 cleared. -/
def compareFlags (l : FlagsLayout) (mode : OverflowMode) (a b : Word) : Byte :=
  packFlags l (a - b == 0) (a - b).msb (subOverflow mode a b)

end Sys2Proof.Machine
end

