-- ==== Sys2Proof/Machine/Compare.lean ====
section
/-! DEFINITION. CMP (44_compare.md R150): the only instruction that writes the flags (10_state.md R25). -/

namespace Sys2Proof.Machine

/-- CMP under a given CMP_OVERFLOW_MODE (R150): the flags byte is written, no register is. -/
def compareUnder (mode : OverflowMode) (r1 r2 : Reg) (s : State) : Result :=
  .next (s.setFlags (compareFlags flagsLayout mode (s.x r1) (s.x r2)))

/-- CMP (R150) in the default CMP_OVERFLOW_MODE of R6; `execUnder` runs it in either. -/
def execCmp (r1 r2 : Reg) (s : State) : Result := compareUnder cmpOverflowMode r1 r2 s

end Sys2Proof.Machine
end

