-- ==== Sys2Proof/Machine/Control.lean ====
section
/-! DEFINITION. JMP, JE, JNE, JG, JL (45_control.md): register-absolute jumps. Their r2 is unused. The
target is not checked here: the next fetch checks it (R160, 30_encoding.md R70). -/

namespace Sys2Proof.Machine

/-- JMP (R160). -/
def execJmp (r1 _r2 : Reg) (s : State) : Result := jumpIf true r1 s

/-- JE (R161): taken iff Z is set. -/
def execJe (r1 _r2 : Reg) (s : State) : Result := jumpIf s.flagZ r1 s

/-- JNE (R162): taken iff Z is clear. -/
def execJne (r1 _r2 : Reg) (s : State) : Result := jumpIf (!s.flagZ) r1 s

/-- JG (R163): taken iff Z and N are clear; the flag condition is the rule (90_conflicts.md C1). -/
def execJg (r1 _r2 : Reg) (s : State) : Result := jumpIf (!s.flagZ && !s.flagN) r1 s

/-- JL (R164): taken iff N is set. -/
def execJl (r1 _r2 : Reg) (s : State) : Result := jumpIf s.flagN r1 s

end Sys2Proof.Machine
end

