-- ==== Sys2Proof/Machine/Halt.lean ====
section
/-! DEFINITION. HALT (46_halt.md R180), the only system instruction (60_exceptions.md R215). -/

namespace Sys2Proof.Machine

/-- HALT (R180): halted <- 1 and nothing else; both operands are unused. -/
def execHalt (_r1 _r2 : Reg) (s : State) : Result := .next (s.setHalted true)

end Sys2Proof.Machine
end

