-- ==== Sys2Proof/Machine/InputOutput.lean ====
section
/-! DEFINITION. INPUT and OUTPUT (42_io.md). Their r2 is unused (30_encoding.md R64). -/

namespace Sys2Proof.Machine

/-- INPUT (R120): x[r1] takes the device's answer; while there is none the CORE waits. -/
def execInput (r1 _r2 : Reg) (s : State) : Result :=
  match ioInput s with
  | some (v, t) => .next (t.setX r1 v)
  | none => .refused .waitingForInput

/-- OUTPUT (R121): x[r1] is sent to the device. -/
def execOutput (r1 _r2 : Reg) (s : State) : Result := .next (ioOutput (s.x r1) s)

end Sys2Proof.Machine
end

