-- ==== Sys2Proof/Machine/LogicShift.lean ====
section
/-! DEFINITION. AND, OR, XOR, NOT, SHL, SHR (43_logic_shift.md). None touches the flags. -/

namespace Sys2Proof.Machine

/-- The left shift by a whole 32-bit amount: zero from 32 on (R134, R136). -/
def shiftLeft (v amount : Word) : Word := if amount.toNat ≥ 32 then 0 else v <<< amount.toNat

/-- The logical right shift by a whole 32-bit amount: zero from 32 on (R135, R136). -/
def shiftRight (v amount : Word) : Word := if amount.toNat ≥ 32 then 0 else v >>> amount.toNat

/-- AND (R130). -/
def execAnd (r1 r2 : Reg) (s : State) : Result := binaryOp (fun a b => a &&& b) r1 r2 s

/-- OR (R131). -/
def execOr (r1 r2 : Reg) (s : State) : Result := binaryOp (fun a b => a ||| b) r1 r2 s

/-- XOR (R132). -/
def execXor (r1 r2 : Reg) (s : State) : Result := binaryOp (fun a b => a ^^^ b) r1 r2 s

/-- NOT (R133); r2 is unused. -/
def execNot (r1 _r2 : Reg) (s : State) : Result := unaryOp (fun a => ~~~a) r1 s

/-- SHL (R134). -/
def execShl (r1 r2 : Reg) (s : State) : Result := binaryOp shiftLeft r1 r2 s

/-- SHR (R135). -/
def execShr (r1 r2 : Reg) (s : State) : Result := binaryOp shiftRight r1 r2 s

end Sys2Proof.Machine
end

