-- ==== Sys2Proof/Machine/MemoryAccess.lean ====
section
/-! DEFINITION. LOAD and STORE (41_memory_access.md): one little-endian word at the address in x[r2]. -/

namespace Sys2Proof.Machine

/-- LOAD (R110): the address is read before x[r1] is written. -/
def execLoad (r1 r2 : Reg) (s : State) : Result :=
  match readWord s.mem (effectiveAddress r2 s) with
  | some v => .next (s.setX r1 v)
  | none => raise (.outOfBounds (effectiveAddress r2 s)) s

/-- STORE (R111): nothing is written where the bound check fails. -/
def execStore (r1 r2 : Reg) (s : State) : Result :=
  match writeWord s.mem (effectiveAddress r2 s) (s.x r1) with
  | some m => .next (s.setMem m)
  | none => raise (.outOfBounds (effectiveAddress r2 s)) s

end Sys2Proof.Machine
end

