-- ==== Sys2Proof/Machine/Dispatch.lean ====
section
/-! DEFINITION. The dispatch of a decoded instruction to its handler (30_encoding.md R73). It runs with
pc = ia + 3 (10_state.md R22). -/

namespace Sys2Proof.Machine

/-- The execute stage (R73): one arm per instruction. -/
def exec (i : Instr) (s : State) : Host.Outcome State Fault Refusal :=
  match i with
  | .add r1 r2 => Sys2Proof.Machine.execAdd r1 r2 s
  | .sub r1 r2 => Sys2Proof.Machine.execSub r1 r2 s
  | .mul r1 r2 => Sys2Proof.Machine.execMul r1 r2 s
  | .div r1 r2 => Sys2Proof.Machine.execDiv r1 r2 s
  | .load r1 r2 => Sys2Proof.Machine.execLoad r1 r2 s
  | .store r1 r2 => Sys2Proof.Machine.execStore r1 r2 s
  | .input r1 r2 => Sys2Proof.Machine.execInput r1 r2 s
  | .output r1 r2 => Sys2Proof.Machine.execOutput r1 r2 s
  | .and r1 r2 => Sys2Proof.Machine.execAnd r1 r2 s
  | .or r1 r2 => Sys2Proof.Machine.execOr r1 r2 s
  | .xor r1 r2 => Sys2Proof.Machine.execXor r1 r2 s
  | .not r1 r2 => Sys2Proof.Machine.execNot r1 r2 s
  | .shl r1 r2 => Sys2Proof.Machine.execShl r1 r2 s
  | .shr r1 r2 => Sys2Proof.Machine.execShr r1 r2 s
  | .cmp r1 r2 => Sys2Proof.Machine.execCmp r1 r2 s
  | .jmp r1 r2 => Sys2Proof.Machine.execJmp r1 r2 s
  | .je r1 r2 => Sys2Proof.Machine.execJe r1 r2 s
  | .jne r1 r2 => Sys2Proof.Machine.execJne r1 r2 s
  | .jg r1 r2 => Sys2Proof.Machine.execJg r1 r2 s
  | .jl r1 r2 => Sys2Proof.Machine.execJl r1 r2 s
  | .halt r1 r2 => Sys2Proof.Machine.execHalt r1 r2 s

end Sys2Proof.Machine
end

