-- ==== Sys2Proof/Machine/Fetch.lean ====
section
/-! DEFINITION. The fetch stage (30_encoding.md R70): three byte reads, pc advanced after each. -/

namespace Sys2Proof.Machine

/-- One byte at pc, pc advanced by 1; where the read fails its bound check, OutOfBounds(pc) is raised
with the instruction address and pc stays (R70). The state stands beside either answer. -/
def fetchByte (ia : Word) (s : State) : Except Fault Byte × State :=
  match readByte s.mem s.pc with
  | some b => (.ok b, s.setPc (s.pc + 1#32))
  | none => (.error (.outOfBounds s.pc ia), s)

/-- The three bytes of the instruction at pc, opcode first (R61, R70), and the state with pc advanced by
the bytes fetched, the fault included. -/
def fetch (s : State) : Except Fault RawInsn × State :=
  match fetchByte s.pc s with
  | (.error f, s1) => (.error f, s1)
  | (.ok op, s1) =>
    match fetchByte s.pc s1 with
    | (.error f, s2) => (.error f, s2)
    | (.ok b1, s2) =>
      match fetchByte s.pc s2 with
      | (.error f, s3) => (.error f, s3)
      | (.ok b2, s3) => (.ok ⟨op, b1, b2⟩, s3)

/-- The state a faulting step leaves (R12, R208): every check of the step comes before its first write,
so only the pc advance of the bytes fetched remains. Log 6. -/
def stateLeftByFault (s : State) : State := (fetch s).2

end Sys2Proof.Machine
end

