-- ==== Sys2Proof/Machine/Cycle.lean ====
section
/-! DEFINITION. One turn of the fetch/decode/dispatch loop (30_encoding.md R69 to R73), for any
parameters of 00_scope.md R6: any OPCODE_MAP and either CMP_OVERFLOW_MODE. -/

namespace Sys2Proof.Machine

/-- The defaults of R6: the map of R66 and the unsigned borrow. Logs 1 and 14. -/
def defaultParams : Params := ⟨defaultOpcodeMap, cmpOverflowMode⟩

/-- The execute stage (R73) in a given CMP_OVERFLOW_MODE. CMP is the one instruction the mode bears on
(R150); every other is its arm of `exec`, which has one for each. -/
def execUnder (mode : OverflowMode) (i : Instr) (s : State) : Result :=
  match i with
  | .cmp r1 r2 => compareUnder mode r1 r2 s
  | other => exec other s

/-- The fault of a word the decoder rejects, recorded with its instruction address (R71, R72, R206). A
fetched word has three bytes, so the last arm is never reached; it names a failed operand fetch. -/
def decodeFault (ia : Word) : DecodeError → Fault
  | .unknownOpcode op => .unknownOpcode op ia
  | .illegalOperand b1 b2 => .illegalOperand b1 b2 ia
  | .truncated => .outOfBounds (ia + 2#32) ia

/-- One turn of the loop: a halted engine executes nothing and stays as it is (R69, R235; log 9);
otherwise fetch, dispatch, operand check, execute, in that order (R70 to R73, R209). -/
def stepUnder (p : Params) (s : State) : Result :=
  if s.halted then .next s
  else
    match fetch s with
    | (.error f, _) => .fault f
    | (.ok w, s1) =>
      match decodeUnder p.opcodeMap w with
      | .error e => .fault (decodeFault s.pc e)
      | .ok i => execUnder p.overflowMode i s1

/-- An instruction word placed at pc of an engine that is running (a harness's setup, R33; log 20). A pc
whose three bytes do not lie in memory leaves no place to put it. -/
def placeAtPc (w : RawInsn) (s : State) : State :=
  if s.pc.toNat + 3 > Config.memSize then s
  else { s with mem := writeBytes s.mem s.pc.toNat w.bytes, halted := false }

end Sys2Proof.Machine
end

