-- ==== Sys2Proof/Machine/Step.lean ====
section
/-! DEFINITION. The machine's step under the default parameters (00_scope.md R6, 30_encoding.md R66, R69 to
R73). -/

namespace Sys2Proof.Machine

/-- One step. -/
def step (s : State) : Host.Outcome State Fault Refusal := stepUnder defaultParams s

/-- The state with the table's word stored where step fetches its next instruction. -/
def State.withFetchWord (s : State) (nbits w : Nat) : State := placeAtPc (layoutWord nbits w) s

end Sys2Proof.Machine
end

