-- ==== Sys2Proof/Machine/HostInterface.lean ====
section
/-! DEFINITION. What the owner of the engine can do and see (00_scope.md R5, 20_memory.md R46,
60_exceptions.md R200 to R207, 70_reset_and_hazards.md R230 to R238). No instruction does any of it. -/

namespace Sys2Proof.Machine

/-! ### Construction and loading -/

/-- The engine constructed, or reinitialised, with its one device (R230, R231). -/
def construct (d : Device) : State := { State.reset with device := d }

/-- load_program(bytes) (R46, R232): byte i of the image goes to address i and nothing else changes; an
image of more than 65536 bytes is refused (decision D20, log 22). -/
def loadProgram (image : List Byte) (s : State) : Option State :=
  if image.length > Config.memSize then none else some (s.setMem (writeBytes s.mem 0 image))

/-- The environment supplies one more answer (R120). An unconstrained device has answered already. -/
def supplyAnswer (v : Word) (s : State) : State :=
  match s.device with
  | .free => s
  | .queued answers => s.setDevice (.queued (answers ++ [v]))

/-! ### What is seen of a halted engine -/

/-- The values sent by OUTPUT, in program order (R122). -/
def State.outputs (s : State) : List Word :=
  s.trace.filterMap fun e => match e with
    | .sent v => some v
    | .received _ => none

/-- The values received by INPUT, in program order (R122). -/
def State.inputs (s : State) : List Word :=
  s.trace.filterMap fun e => match e with
    | .received v => some v
    | .sent _ => none

/-- The test double's "last output", the last element of the output sequence (R122). -/
def State.lastOutput (s : State) : Option Word := s.outputs.getLast?

/-- The halt report: all eight registers and the flags byte (R237). -/
structure Report where
  regs : Vector Word 8
  flags : Byte
  deriving DecidableEq, Repr

def State.report (s : State) : Report := ⟨s.regs, s.flags⟩

/-- The observation of a halted run (R34, decision D22). -/
structure Observation where
  regs : Vector Word 8
  flags : Byte
  mem : Memory
  pc : Word
  outputs : List Word
  deriving DecidableEq, Repr

def State.observation (s : State) : Observation := ⟨s.regs, s.flags, s.mem, s.pc, s.outputs⟩

/-! ### The fault record (R206) -/

/-- The kind of a fault (R200). A claim should depend on the kind only (decision D10). -/
inductive FaultKind where
  | UnknownOpcode
  | DivisionByZero
  | OutOfBounds
  | IllegalOperand
  deriving DecidableEq, Repr

/-- The numeric code of a kind (R200). -/
def FaultKind.code : FaultKind → Nat
  | .UnknownOpcode => 1
  | .DivisionByZero => 2
  | .OutOfBounds => 3
  | .IllegalOperand => 4

/-- What a record holds beyond kind and ia (R206). -/
inductive FaultDetail where
  | opcode (op : Byte)
  | address (addr : Word)
  | operandBytes (b1 b2 : Byte)
  | empty
  deriving DecidableEq, Repr

def Fault.kind : Fault → FaultKind
  | .unknownOpcode _ _ => .UnknownOpcode
  | .divisionByZero _ => .DivisionByZero
  | .outOfBounds _ _ => .OutOfBounds
  | .illegalOperand _ _ _ => .IllegalOperand

def Fault.ia : Fault → Word
  | .unknownOpcode _ ia => ia
  | .divisionByZero ia => ia
  | .outOfBounds _ ia => ia
  | .illegalOperand _ _ ia => ia

def Fault.detail : Fault → FaultDetail
  | .unknownOpcode op _ => .opcode op
  | .divisionByZero _ => .empty
  | .outOfBounds addr _ => .address addr
  | .illegalOperand b1 b2 _ => .operandBytes b1 b2

/-! ### run() -/

/-- How a run ends (R238); `running` where the steps counted were too few to tell, which a run for ever
is for every count. -/
inductive RunEnd where
  /-- HALT completed, or the engine was halted already: the final state and its report (R235, R237) -/
  | halted (s : State) (report : Report)
  /-- a step raised a fault: the fault and the state it left (R207, R208) -/
  | faulted (f : Fault) (left : State)
  /-- a step has no successor: INPUT waits (R120); the state at the waiting instruction -/
  | waiting (why : Refusal) (s : State)
  | running (s : State)
  deriving DecidableEq, Repr

/-- run() (R69, R234) under given parameters: `while halted = 0: Step()`, at most the given number of
steps. Log 23. -/
def runUnder (p : Params) : Nat → State → RunEnd
  | 0, s => if s.halted then .halted s s.report else .running s
  | k + 1, s =>
    if s.halted then .halted s s.report
    else
      match stepUnder p s with
      | .next t => runUnder p k t
      | .fault f => .faulted f (stateLeftByFault s)
      | .refused r => .waiting r s

/-- run() under the default parameters. -/
def run (k : Nat) (s : State) : RunEnd := runUnder defaultParams k s

/-! ### The engine and its operations

The operations below are the owner's: the host's `run`, `loadProgram` and `reinitialise` (R231 to R234), and
the harness's setup and inspection (R5, R33). Each answers nothing while a run is active: "No other engine
operation is available during a run" (R234). What goes on during a run is the loop itself (`proceed`) and
the device's answer (`answer`). Log 27. -/

/-- Where an engine stands. A fault is no state of the machine (R27), so a faulted engine is apart. -/
inductive Phase where
  /-- no run is active: constructed and not run yet, or the last run ended at a HALT -/
  | idle (s : State)
  /-- a run is active: its loop stands at this state, at an INPUT that waits (R32, R120) or anywhere else -/
  | active (s : State)
  /-- the last run ended in a fault (R207) -/
  | faulted (f : Fault) (left : State)
  deriving DecidableEq, Repr

/-- An engine: its parameters, which are fixed for its life (R6, R29, R67), and where it stands. -/
structure Engine where
  params : Params
  phase : Phase
  deriving DecidableEq, Repr

/-- The engine constructed with its parameters and its one device (R230). -/
def Engine.construct (p : Params) (d : Device) : Engine := ⟨p, .idle (Machine.construct d)⟩

/-- Where a run leaves the engine. A run that waits for its device, or that the steps counted did not bring
to an end, is still active: of the four ends of R238 a count of steps can reach only a halt and a fault. -/
def RunEnd.phase : RunEnd → Phase
  | .halted s _ => .idle s
  | .faulted f left => .faulted f left
  | .waiting _ s => .active s
  | .running s => .active s

/-- At most the given number of turns of the engine's loop from a state: how the run stands after them, and
the engine. -/
def Engine.loop (k : Nat) (s : State) (e : Engine) : RunEnd × Engine :=
  let r := runUnder e.params k s
  (r, { e with phase := r.phase })

/-- run() (R234) and at most the given number of turns of its loop. During a run it is not available (R234),
and after a fault the engine must be reinitialised first (R207, R236; decision D12). -/
def Engine.run (k : Nat) (e : Engine) : Option (RunEnd × Engine) :=
  match e.phase with
  | .idle s => some (e.loop k s)
  | .active _ | .faulted _ _ => none

/-- At most the given number of further turns of the loop of the run that is active. This is no operation
of the owner: it is the run itself going on. -/
def Engine.proceed (k : Nat) (e : Engine) : Option (RunEnd × Engine) :=
  match e.phase with
  | .active s => some (e.loop k s)
  | .idle _ | .faulted _ _ => none

/-- The device answers (R120): the environment's act, which may come during a run. -/
def Engine.answer (v : Word) (e : Engine) : Engine :=
  match e.phase with
  | .idle s => { e with phase := .idle (supplyAnswer v s) }
  | .active s => { e with phase := .active (supplyAnswer v s) }
  | .faulted f left => { e with phase := .faulted f (supplyAnswer v left) }

/-- A change the owner makes to the state while no run is active (R5, R46). -/
def Engine.betweenRuns (change : State → Option State) (e : Engine) : Option Engine :=
  match e.phase with
  | .idle s => (change s).map fun t => { e with phase := .idle t }
  | .faulted f left => (change left).map fun t => { e with phase := .faulted f t }
  | .active _ => none

/-- load_program on an engine: "used only while no run is active" (R46). It brings no engine out of HALTED
or out of a fault (R231, R232). -/
def Engine.loadProgram (image : List Byte) (e : Engine) : Option Engine :=
  e.betweenRuns (Machine.loadProgram image)

/-- A harness sets the registers, pc and the three flags (R33). -/
def Engine.setRegisters (regs : Vector Word 8) (pc : Word) (z n o : Bool) (e : Engine) : Option Engine :=
  e.betweenRuns fun s => some { s with regs := regs, pc := pc, flags := packFlags flagsLayout z n o }

/-- A harness writes one byte of memory (R5, R33), under the bound check of the primitive (R42). That a write
at 65536 or above answers none and leaves the engine as it is is the model's DESIGN CHOICE: R42 says raise
OutOfBounds(addr), and R11 and R206 give a raise its meaning for an instruction of a run only. Log 28. -/
def Engine.writeMemory (a : Word) (v : Byte) (e : Engine) : Option Engine :=
  e.betweenRuns fun s => (writeByte s.mem a v).map s.setMem

/-- What the owner may inspect: the whole state while no run is active (R5, R34), also of a faulted engine
(R208). -/
def Engine.inspect (e : Engine) : Option State :=
  match e.phase with
  | .idle s => some s
  | .faulted _ left => some left
  | .active _ => none

/-- Reinitialising constructs the engine afresh, out of HALTED and out of a fault alike (R231); a run cannot
be cancelled by it (R120, R234). That it keeps the engine's parameters is the model's DESIGN CHOICE (log
27). -/
def Engine.reinitialise (d : Device) (e : Engine) : Option Engine :=
  match e.phase with
  | .idle _ | .faulted _ _ => some (Engine.construct e.params d)
  | .active _ => none

end Sys2Proof.Machine
end

