-- ==== Sys2Proof/Safety.lean ====
section
/-! DEFINITION. The terms claims are stated in: the machine's invariant, what an instruction may write
(10_state.md R21, R23, R25), what two states share, and a safe run. -/

namespace Sys2Proof.Machine

/-- The reserved bits of the flags byte, 7:3 under the layout of R24. -/
def reservedFlags : Byte := ~~~(packFlags flagsLayout true true true)

/-- The machine's invariant: memory is in canonical form over the 65536 addresses (R28), and the flags
byte's reserved bits are 0 (R24). -/
def State.Inv (s : State) : Prop := s.mem.wf ∧ s.flags &&& reservedFlags = 0

/-- The register an instruction writes (table of R21), if it writes one. -/
def destination : Instr → Option Reg
  | .add r1 _ | .sub r1 _ | .mul r1 _ | .div r1 _ | .load r1 _ | .input r1 _ => some r1
  | .and r1 _ | .or r1 _ | .xor r1 _ | .not r1 _ | .shl r1 _ | .shr r1 _ => some r1
  | .store _ _ | .output _ _ | .cmp _ _ | .halt _ _ => none
  | .jmp _ _ | .je _ _ | .jne _ _ | .jg _ _ | .jl _ _ => none

/-- The register whose value an instruction may load into pc (R21, R23). -/
def jumpRegister : Instr → Option Reg
  | .jmp r1 _ | .je r1 _ | .jne r1 _ | .jg r1 _ | .jl r1 _ => some r1
  | .add _ _ | .sub _ _ | .mul _ _ | .div _ _ | .load _ _ | .store _ _ | .input _ _ | .output _ _ => none
  | .and _ _ | .or _ _ | .xor _ _ | .not _ _ | .shl _ _ | .shr _ _ | .cmp _ _ | .halt _ _ => none

/-- Every register is the same. -/
def SameRegs (s t : State) : Prop := ∀ q : Reg, t.x q = s.x q

/-- Every byte of memory reads the same. -/
def SameMem (s t : State) : Prop := ∀ a : Word, readByte t.mem a = readByte s.mem a

/-- Every byte of memory outside the four from `ea` on reads the same. -/
def SameMemOutside (ea : Word) (s t : State) : Prop :=
  ∀ a : Word, a.toNat < ea.toNat ∨ ea.toNat + 3 < a.toNat → readByte t.mem a = readByte s.mem a

/-- The device and the I/O events are the same. -/
def SameIo (s t : State) : Prop := t.device = s.device ∧ t.trace = s.trace

/-- The whole effect of an instruction that writes one register: `r` holds `v`, and every other register,
pc, the flags, halted, every byte of memory and the I/O are as before. -/
def WritesOnly (r : Reg) (v : Word) (s t : State) : Prop :=
  t.x r = v ∧ (∀ q : Reg, q ≠ r → t.x q = s.x q) ∧ t.pc = s.pc ∧ t.flags = s.flags ∧
    t.halted = s.halted ∧ SameMem s t ∧ SameIo s t

/-- The whole effect of a jump: pc holds `target`, and everything else is as before. -/
def JumpsOnly (target : Word) (s t : State) : Prop :=
  t.pc = target ∧ SameRegs s t ∧ t.flags = s.flags ∧ t.halted = s.halted ∧ SameMem s t ∧ SameIo s t

/-- The whole effect of CMP: the flags byte holds `z`, `n` and `o` at bits 0, 1 and 2 and zeros above
(R24), and every register, pc, halted, every byte of memory and the I/O are as before. -/
def FlagsOnly (z n o : Bool) (s t : State) : Prop :=
  t.flags.getLsbD 0 = z ∧ t.flags.getLsbD 1 = n ∧ t.flags.getLsbD 2 = o ∧
    (∀ k, 3 ≤ k → t.flags.getLsbD k = false) ∧
    SameRegs s t ∧ t.pc = s.pc ∧ t.halted = s.halted ∧ SameMem s t ∧ SameIo s t

/-- A run of the host's machine from `s` for `k` steps that meets no fault and no refusal. -/
def SafeFor (k : Nat) (s : State) : Prop := ∃ t, Host.Core.run Sys2Proof.core k s = .next t

end Sys2Proof.Machine
end

