-- ==== Sys2Proof/Certificates/Slice0/Obligations.lean ====
section
/-! DEFINITION. The statements for the provers. Each docstring names the rules of spec/ it follows. A
handler runs with pc = ia + 3 (10_state.md R22), so a statement about `exec` names ia by `s.pc = ia + 3`
where it needs it. `step` is `stepUnder` at the default parameters, and the execute stage `execUnder` in the
default mode is `exec`; a statement for every `p : Params`, any OPCODE_MAP and either CMP_OVERFLOW_MODE,
holds of `step` too. -/

open Sys2Proof Sys2Proof.Machine

/-! ### Encoding -/

/-- R60, R61, R65, R72: under every legal OPCODE_MAP, decoding the encoding of any instruction, with every
register in either place, gives that instruction back. -/
def Obligations.DecodeOfEncode : Prop :=
  ∀ m : OpcodeMap, m.WellFormed → ∀ i : Instr, ∃ w, encodeUnder m i = some w ∧ decodeUnder m w = .ok i

/-- R61, R65, R72: under every legal OPCODE_MAP a word that decodes is the encoding of what it decodes to:
no two words mean one instruction. -/
def Obligations.EncodeOfDecode : Prop :=
  ∀ m : OpcodeMap, m.WellFormed → ∀ w i, decodeUnder m w = .ok i → encodeUnder m i = some w

/-- R71, R72, R74: the three kinds of word, each with the decoder's answer. -/
def Obligations.WordsAreOfThreeKinds : Prop :=
  ∀ (m : OpcodeMap) (w : RawInsn),
    ((∃ i, decodeUnder m w = .ok i) ↔
      (∃ k, m.handler w.op = some k) ∧ w.b1.toNat < 8 ∧ w.b2.toNat < 8) ∧
    (decodeUnder m w = .error (.unknownOpcode w.op) ↔ m.handler w.op = none) ∧
    (decodeUnder m w = .error (.illegalOperand w.b1 w.b2) ↔
      (∃ k, m.handler w.op = some k) ∧ (8 ≤ w.b1.toNat ∨ 8 ≤ w.b2.toNat))

/-- R66, R82: a few words of the default map, written out from the spec's encodings. -/
def Obligations.SampleWordsDecode : Prop :=
  decode ⟨0x40, 0x01, 0x00⟩ = .ok (.add 1 0) ∧ decode ⟨0x51, 0x07, 0x04⟩ = .ok (.store 7 4) ∧
  decode ⟨0x60, 0x03, 0x00⟩ = .ok (.input 3 0) ∧ decode ⟨0x75, 0x01, 0x02⟩ = .ok (.shr 1 2) ∧
  decode ⟨0x80, 0x05, 0x05⟩ = .ok (.cmp 5 5) ∧ decode ⟨0x94, 0x05, 0x00⟩ = .ok (.jl 5 0) ∧
  decode ⟨0xFF, 0x00, 0x00⟩ = .ok (.halt 0 0) ∧
  decode ⟨0x00, 0x09, 0x09⟩ = .error (.unknownOpcode 0x00) ∧
  decode ⟨0xFF, 0x00, 0x08⟩ = .error (.illegalOperand 0x00 0x08)

/-- R65, R66: the default map is a legal OPCODE_MAP, and it selects what the table of R66 says, byte by
byte; every other byte selects nothing. The values are the spec's own choice (log 1). -/
def Obligations.DefaultMapIsTheTableOfR66 : Prop :=
  defaultOpcodeMap.WellFormed ∧
  ∀ op : Byte, defaultOpcodeMap.handler op = match op.toNat with
    | 0x40 => some .ADD | 0x41 => some .SUB | 0x42 => some .MUL | 0x43 => some .DIV
    | 0x50 => some .LOAD | 0x51 => some .STORE | 0x60 => some .INPUT | 0x61 => some .OUTPUT
    | 0x70 => some .AND | 0x71 => some .OR | 0x72 => some .XOR | 0x73 => some .NOT
    | 0x74 => some .SHL | 0x75 => some .SHR | 0x80 => some .CMP | 0x90 => some .JMP
    | 0x91 => some .JE | 0x92 => some .JNE | 0x93 => some .JG | 0x94 => some .JL
    | 0xFF => some .HALT
    | _ => none

/-! ### The cycle -/

/-- R22, R69, R70, R73: when the engine runs and the three bytes at pc decode to an instruction, a step is
that instruction's `exec` with pc advanced by 3 and nothing else changed before it. -/
def Obligations.StepRunsDecodedInstruction : Prop :=
  ∀ (s : State) (op b1 b2 : Byte) (i : Instr),
    s.halted = false →
    readByte s.mem s.pc = some op →
    readByte s.mem (s.pc + 1#32) = some b1 →
    readByte s.mem (s.pc + 2#32) = some b2 →
    decode ⟨op, b1, b2⟩ = .ok i →
    step s = exec i { s with pc := s.pc + 3#32 }

/-- R70: the fetch reads three bytes at pc, pc+1, pc+2 and advances pc by 3; where one of them lies
outside memory the step raises OutOfBounds at the first such address, and pc is left there. -/
def Obligations.FetchReadsThreeBytesOrFaults : Prop :=
  (∀ (s : State) (op b1 b2 : Byte),
    readByte s.mem s.pc = some op →
    readByte s.mem (s.pc + 1#32) = some b1 →
    readByte s.mem (s.pc + 2#32) = some b2 →
    fetch s = (.ok ⟨op, b1, b2⟩, { s with pc := s.pc + 3#32 })) ∧
  (∀ (p : Params) (s : State), s.halted = false → 65533 < s.pc.toNat →
    ∃ addr : Word, addr.toNat = max s.pc.toNat 65536 ∧
      stepUnder p s = .fault (.outOfBounds addr s.pc) ∧ stateLeftByFault s = { s with pc := addr })

/-- R71: an opcode the map does not have raises UnknownOpcode with the opcode and ia, whatever the operand
bytes are. -/
def Obligations.UnknownOpcodeFaults : Prop :=
  ∀ (p : Params) (s : State) (op b1 b2 : Byte),
    s.halted = false →
    readByte s.mem s.pc = some op →
    readByte s.mem (s.pc + 1#32) = some b1 →
    readByte s.mem (s.pc + 2#32) = some b2 →
    p.opcodeMap.handler op = none →
    stepUnder p s = .fault (.unknownOpcode op s.pc)

/-- R72: after dispatch and before the handler, an operand byte of 8 or more, in either place, raises
IllegalOperand with both bytes and ia; bytes below 8 are the handler's register indices, and the handler
runs in the engine's overflow mode. (The rule is the spec's by its decision D3, log 8.) -/
def Obligations.OperandsAreCheckedBeforeTheHandler : Prop :=
  ∀ (p : Params) (s : State) (op b1 b2 : Byte) (k : Mnemonic),
    s.halted = false →
    readByte s.mem s.pc = some op →
    readByte s.mem (s.pc + 1#32) = some b1 →
    readByte s.mem (s.pc + 2#32) = some b2 →
    p.opcodeMap.handler op = some k →
    ((8 ≤ b1.toNat ∨ 8 ≤ b2.toNat) → stepUnder p s = .fault (.illegalOperand b1 b2 s.pc)) ∧
    (∀ r1 r2 : Reg, b1.toNat = r1.val → b2.toNat = r2.val →
      stepUnder p s = execUnder p.overflowMode (k.instr r1 r2) { s with pc := s.pc + 3#32 })

/-- R12, R206, R208: whatever fault a step raises, its record names the instruction address, and the state
it leaves differs from the state before only in pc, advanced by the bytes fetched: by 3 where all three
lie in memory, else to the first address outside. A fault outcome holds no state: that the state left is
`stateLeftByFault`, the fetch's own, whatever the handler does, is the model's DESIGN CHOICE (log 6), and
the clauses on it rest on that. -/
def Obligations.FaultLeavesOnlyThePcAdvance : Prop :=
  ∀ (p : Params) (s : State) (f : Fault), stepUnder p s = .fault f →
    f.ia = s.pc ∧
    (stateLeftByFault s).pc.toNat = (if 65536 ≤ s.pc.toNat then s.pc.toNat else min (s.pc.toNat + 3) 65536) ∧
    SameRegs s (stateLeftByFault s) ∧ (stateLeftByFault s).flags = s.flags ∧
    (stateLeftByFault s).halted = s.halted ∧ SameMem s (stateLeftByFault s) ∧ SameIo s (stateLeftByFault s)

/-- R205 (the handlers' columns): DIV with a zero divisor and LOAD or STORE above 65532 are the only
handlers that raise a fault, and these are the faults they raise. -/
def Obligations.OnlyDivLoadStoreHandlersFault : Prop :=
  ∀ (i : Instr) (s : State) (f : Fault) (ia : Word), s.pc = ia + 3#32 → exec i s = .fault f →
    (∃ r1 r2, i = .div r1 r2 ∧ s.x r2 = 0 ∧ f = .divisionByZero ia) ∨
    (∃ r1 r2, (i = .load r1 r2 ∨ i = .store r1 r2) ∧ 65532 < (s.x r2).toNat ∧ f = .outOfBounds (s.x r2) ia)

/-- R120, R220: INPUT is the only instruction that can wait, and it waits only while its device has
supplied no answer. That waiting is the refusal waitingForInput is the model's choice (log 3), as is
`queued []` for a device that has supplied no answer (log 4). -/
def Obligations.OnlyInputWaits : Prop :=
  ∀ (p : Params) (s : State) (r : Refusal), stepUnder p s = .refused r →
    r = .waitingForInput ∧ s.device = .queued [] ∧
    ∃ op b1 b2 r1 r2, readByte s.mem s.pc = some op ∧ readByte s.mem (s.pc + 1#32) = some b1 ∧
      readByte s.mem (s.pc + 2#32) = some b2 ∧ decodeUnder p.opcodeMap ⟨op, b1, b2⟩ = .ok (.input r1 r2)

/-! ### Reset and invariants -/

/-- R230: what reset leaves, for the engine constructed with any device and for `State.reset`, whose
device is the model's choice (log 4). -/
def Obligations.ResetLeavesTheStatedValues : Prop :=
  ∀ (d : Device) (s : State), s = construct d ∨ s = State.reset →
    (∀ q : Reg, s.x q = 0) ∧ s.pc = 0 ∧ s.flags = 0 ∧ s.halted = false ∧
    (∀ a : Word, a.toNat < 65536 → readByte s.mem a = some 0) ∧ s.trace = [] ∧
    (s = construct d → s.device = d)

/-- R24, R28, R230: the reset state meets the invariant. Of the invariant, the reserved flag bits and the
65536 addresses are the spec's; that memory is a list in canonical form (rising addresses, no entry 0x00)
is the model's DESIGN CHOICE (log 18). -/
def Obligations.ResetMeetsInvariant : Prop := State.reset.Inv

/-- At every step, from every state that meets the invariant, and under any parameters, the reserved flag
bits stay 0 (R24) and memory stays in canonical form inside its 65536 addresses (R28). The canonical form
of the list (rising addresses, no entry 0x00) is the model's DESIGN CHOICE (log 18), not the spec's. -/
def Obligations.StepKeepsInvariant : Prop :=
  (∀ s t : State, s.Inv → step s = .next t → t.Inv) ∧
  (∀ (p : Params) (s t : State), s.Inv → stepUnder p s = .next t → t.Inv)

/-- R24, R26, R28, R122: along every run of the host's machine the invariant is kept, halted is never
taken back, and the trace of I/O events only grows. The invariant's canonical form of the memory list and
the trace as a field of the state are the model's DESIGN CHOICES (logs 18 and 5). -/
def Obligations.RunsKeepInvariantHaltedAndTrace : Prop :=
  ∀ (k : Nat) (s t : State), s.Inv → Host.Core.run Sys2Proof.core k s = .next t →
    t.Inv ∧ (s.halted = true → t.halted = true) ∧ ∃ events, t.trace = s.trace ++ events

/-! ### Whole-machine rules -/

/-- R26: halted starts false, is set by HALT and by no other instruction, is never taken back by a step,
and is cleared by reinitialising. That the reinitialised engine is idle and has the parameters it had is the
model's DESIGN CHOICE (log 27), not R26's. -/
def Obligations.OnlyHaltSetsHalted : Prop :=
  State.reset.halted = false ∧
  (∀ (i : Instr) (s t : State), exec i s = .next t →
    (t.halted = true ↔ s.halted = true ∨ ∃ r1 r2, i = .halt r1 r2)) ∧
  (∀ (p : Params) (s t : State), stepUnder p s = .next t → s.halted = true → t.halted = true) ∧
  (∀ (d : Device) (e n : Engine), e.reinitialise d = some n →
    ∃ s, n.phase = .idle s ∧ s.halted = false ∧ n.params = e.params)

/-- R25: CMP writes the flags byte whole, all three flags from its operands (R150, default mode) and bits
7:3 cleared, and nothing else; no other instruction changes any bit of it. (The mode is the spec's decision
D6, log 14.) -/
def Obligations.OnlyCompareWritesFlags : Prop :=
  ∀ (i : Instr) (s t : State), exec i s = .next t →
    ((∀ r1 r2, i ≠ .cmp r1 r2) → t.flags = s.flags) ∧
    (∀ r1 r2, i = .cmp r1 r2 →
      FlagsOnly (decide (s.x r1 = s.x r2)) ((s.x r1 - s.x r2).getLsbD 31)
        (decide ((s.x r1).toNat < (s.x r2).toNat)) s t)

/-- R23: a step advances pc by 3 unless it is a taken jump, which loads the whole 32-bit register. -/
def Obligations.PcAdvancesByThreeOrJumps : Prop :=
  ∀ (p : Params) (s t : State) (op b1 b2 : Byte) (i : Instr),
    s.halted = false →
    readByte s.mem s.pc = some op →
    readByte s.mem (s.pc + 1#32) = some b1 →
    readByte s.mem (s.pc + 2#32) = some b2 →
    decodeUnder p.opcodeMap ⟨op, b1, b2⟩ = .ok i →
    stepUnder p s = .next t →
    t.pc = s.pc + 3#32 ∨ ∃ r, jumpRegister i = some r ∧ t.pc = s.x r

/-- R21, R49: STORE is the only instruction after which any byte of memory may read differently, and then
only the four bytes from x[r2] on. -/
def Obligations.OnlyStoreWritesMemory : Prop :=
  ∀ (i : Instr) (s t : State), exec i s = .next t →
    ((∀ r1 r2, i ≠ .store r1 r2) → SameMem s t) ∧
    (∀ r1 r2, i = .store r1 r2 → SameMemOutside (effectiveAddress r2 s) s t)

/-- R21: an instruction writes no register but its destination in the table of R21. -/
def Obligations.RegistersWrittenAreTheDestinations : Prop :=
  ∀ (i : Instr) (s t : State), exec i s = .next t → ∀ q : Reg, destination i ≠ some q → t.x q = s.x q

/-- R122: INPUT appends the value received, OUTPUT the value sent, and no other instruction makes an I/O
event. -/
def Obligations.IoEventsAreRecordedInOrder : Prop :=
  ∀ (i : Instr) (s t : State), exec i s = .next t →
    (∀ r1 r2, i = .input r1 r2 → t.trace = s.trace ++ [.received (t.x r1)]) ∧
    (∀ r1 r2, i = .output r1 r2 → t.trace = s.trace ++ [.sent (s.x r1)]) ∧
    ((∀ r1 r2, i ≠ .input r1 r2) → t.device = s.device) ∧
    ((∀ r1 r2, i ≠ .input r1 r2) → (∀ r1 r2, i ≠ .output r1 r2) → t.trace = s.trace)

/-- R62, R64: the unused second operand of NOT, INPUT, OUTPUT and the jumps, and both operands of HALT,
have no effect on the result. -/
def Obligations.UnusedOperandsHaveNoEffect : Prop :=
  ∀ (r a b : Reg) (s : State),
    exec (.not r a) s = exec (.not r b) s ∧ exec (.input r a) s = exec (.input r b) s ∧
    exec (.output r a) s = exec (.output r b) s ∧ exec (.jmp r a) s = exec (.jmp r b) s ∧
    exec (.je r a) s = exec (.je r b) s ∧ exec (.jne r a) s = exec (.jne r b) s ∧
    exec (.jg r a) s = exec (.jg r b) s ∧ exec (.jl r a) s = exec (.jl r b) s ∧
    exec (.halt r a) s = exec (.halt a b) s

/-! ### Arithmetic -/

/-- R100: ADD completes with the sum modulo 2^32 in r1 and nothing else changed. -/
def Obligations.AddWritesTheWrappedSum : Prop :=
  ∀ (r1 r2 : Reg) (s : State), ∃ t v, exec (.add r1 r2) s = .next t ∧ WritesOnly r1 v s t ∧
    v.toNat = ((s.x r1).toNat + (s.x r2).toNat) % 2 ^ 32

/-- R101: SUB completes with the difference modulo 2^32 in r1 and nothing else changed. -/
def Obligations.SubWritesTheWrappedDifference : Prop :=
  ∀ (r1 r2 : Reg) (s : State), ∃ t v, exec (.sub r1 r2) s = .next t ∧ WritesOnly r1 v s t ∧
    (v.toNat : Int) = ((s.x r1).toNat - (s.x r2).toNat : Int) % 2 ^ 32

/-- R102: MUL completes with the low 32 bits of the product in r1 and nothing else changed. -/
def Obligations.MulWritesTheWrappedProduct : Prop :=
  ∀ (r1 r2 : Reg) (s : State), ∃ t v, exec (.mul r1 r2) s = .next t ∧ WritesOnly r1 v s t ∧
    v.toNat = ((s.x r1).toNat * (s.x r2).toNat) % 2 ^ 32

/-- R103: DIV by a nonzero register completes with the unsigned quotient rounded down in r1 and nothing
else changed; by zero it raises DivisionByZero with ia, regardless of the dividend. -/
def Obligations.DivWritesTheQuotientOrFaults : Prop :=
  ∀ (r1 r2 : Reg) (s : State),
    (s.x r2 ≠ 0 → ∃ t v, exec (.div r1 r2) s = .next t ∧ WritesOnly r1 v s t ∧
      v.toNat = (s.x r1).toNat / (s.x r2).toNat) ∧
    (s.x r2 = 0 → ∀ ia, s.pc = ia + 3#32 → exec (.div r1 r2) s = .fault (.divisionByZero ia))

/-! ### Memory -/

/-- R41, R42: a byte read or write at 65536 or above fails its bound check; below, a write leaves exactly
that byte changed, to the value written. -/
def Obligations.ByteWriteChangesExactlyOneByte : Prop :=
  ∀ (m : Memory) (a : Word) (v : Byte),
    (65536 ≤ a.toNat → readByte m a = none ∧ writeByte m a v = none) ∧
    (a.toNat < 65536 → ∃ n, writeByte m a v = some n ∧ readByte n a = some v ∧
      ∀ b : Word, b ≠ a → readByte n b = readByte m b)

/-- R45: a word written at any address up to 65532 reads back, and its four bytes lie in memory from that
address on, the least significant lowest (R44, R47); 0x12345678 written at 0 lies there as 78 56 34 12. -/
def Obligations.WordRoundTrip : Prop :=
  (∀ (m : Memory) (a v : Word), a.toNat ≤ 65532 →
    ∃ n, writeWord m a v = some n ∧ readWord n a = some v ∧
      readByte n a = some (v.extractLsb' 0 8) ∧ readByte n (a + 1#32) = some (v.extractLsb' 8 8) ∧
      readByte n (a + 2#32) = some (v.extractLsb' 16 8) ∧ readByte n (a + 3#32) = some (v.extractLsb' 24 8)) ∧
  (∀ m : Memory, ∃ n, writeWord m 0 0x12345678 = some n ∧ readByte n 0 = some 0x78 ∧
    readByte n 1 = some 0x56 ∧ readByte n 2 = some 0x34 ∧ readByte n 3 = some 0x12)

/-- R110: LOAD at an address up to 65532 completes with the four bytes there, the lowest address least
significant, in r1 and nothing else changed; above, it raises OutOfBounds with the address. The address
plus 3 is never wrapped. -/
def Obligations.LoadWritesTheWordOrFaults : Prop :=
  ∀ (r1 r2 : Reg) (s : State) (ea : Word), ea = s.x r2 →
    (ea.toNat ≤ 65532 → ∃ t v b0 b1 b2 b3, exec (.load r1 r2) s = .next t ∧ WritesOnly r1 v s t ∧
      readByte s.mem ea = some b0 ∧ readByte s.mem (ea + 1#32) = some b1 ∧
      readByte s.mem (ea + 2#32) = some b2 ∧ readByte s.mem (ea + 3#32) = some b3 ∧
      v.toNat = b0.toNat + 2 ^ 8 * b1.toNat + 2 ^ 16 * b2.toNat + 2 ^ 24 * b3.toNat) ∧
    (65532 < ea.toNat → ∀ ia, s.pc = ia + 3#32 → exec (.load r1 r2) s = .fault (.outOfBounds ea ia))

/-- R111: STORE at an address up to 65532 completes with the four bytes of x[r1] there, the least
significant lowest, every other byte and everything else as before; above, it raises OutOfBounds. -/
def Obligations.StoreWritesTheWordOrFaults : Prop :=
  ∀ (r1 r2 : Reg) (s : State) (ea : Word), ea = effectiveAddress r2 s → ea = s.x r2 ∧
    (ea.toNat ≤ 65532 → ∃ t b0 b1 b2 b3, exec (.store r1 r2) s = .next t ∧
      readByte t.mem ea = some b0 ∧ readByte t.mem (ea + 1#32) = some b1 ∧
      readByte t.mem (ea + 2#32) = some b2 ∧ readByte t.mem (ea + 3#32) = some b3 ∧
      (s.x r1).toNat = b0.toNat + 2 ^ 8 * b1.toNat + 2 ^ 16 * b2.toNat + 2 ^ 24 * b3.toNat ∧
      SameMemOutside ea s t ∧ SameRegs s t ∧ t.pc = s.pc ∧ t.flags = s.flags ∧ t.halted = s.halted ∧
      SameIo s t) ∧
    (65532 < ea.toNat → ∀ ia, s.pc = ia + 3#32 → exec (.store r1 r2) s = .fault (.outOfBounds ea ia))

/-- R55, R239: a STORE over the next instruction's bytes changes what is fetched next: the three low bytes
of the stored word, the least significant as the opcode. -/
def Obligations.StoreIsSeenByTheNextFetch : Prop :=
  ∀ (p : Params) (s : State) (op b1 b2 : Byte) (r1 r2 : Reg),
    s.halted = false →
    readByte s.mem s.pc = some op →
    readByte s.mem (s.pc + 1#32) = some b1 →
    readByte s.mem (s.pc + 2#32) = some b2 →
    decodeUnder p.opcodeMap ⟨op, b1, b2⟩ = .ok (.store r1 r2) →
    s.x r2 = s.pc + 3#32 →
    (s.x r2).toNat ≤ 65532 →
    ∃ t, stepUnder p s = .next t ∧
      fetch t = (.ok ⟨(s.x r1).extractLsb' 0 8, (s.x r1).extractLsb' 8 8, (s.x r1).extractLsb' 16 8⟩,
        { t with pc := s.pc + 6#32 })

/-! ### Input and output -/

/-- R120: while the device has an answer INPUT completes: r1 holds the answer, which a free device may give
any value, the event is recorded (R122), and nothing else changes. That the answers supplied and not yet
taken are a list in the state's device, and that the one supplied first is taken first, is the model's
DESIGN CHOICE (log 4), not R120's; the trace as a field of the state is log 5. -/
def Obligations.InputWritesTheDevicesAnswer : Prop :=
  ∀ (r1 r2 : Reg) (s : State), s.device ≠ .queued [] →
    ∃ t v, exec (.input r1 r2) s = .next t ∧ t.x r1 = v ∧ (∀ q, q ≠ r1 → t.x q = s.x q) ∧
      t.trace = s.trace ++ [.received v] ∧
      (s.device = .free → t.device = .free) ∧
      (∀ w rest, s.device = .queued (w :: rest) → v = w ∧ t.device = .queued rest) ∧
      t.pc = s.pc ∧ t.flags = s.flags ∧ t.halted = s.halted ∧ SameMem s t

/-- R120, R238: an INPUT whose device has not answered has no next state and raises no fault; once the
environment supplies an answer the same step completes with it. That waiting is a refusal, and the list of
answers supplied, are the model's DESIGN CHOICES (logs 3 and 4). -/
def Obligations.InputWaitsUntilAnswered : Prop :=
  ∀ (r1 r2 : Reg) (s : State) (v : Word), s.device = .queued [] →
    exec (.input r1 r2) s = .refused .waitingForInput ∧
    ∃ t, exec (.input r1 r2) (supplyAnswer v s) = .next t ∧ t.x r1 = v ∧ t.device = .queued []

/-- R121: OUTPUT completes with x[r1] sent and nothing but the record of it (R122, the trace field of log 5)
changed. -/
def Obligations.OutputSendsTheRegister : Prop :=
  ∀ (r1 r2 : Reg) (s : State), ∃ t, exec (.output r1 r2) s = .next t ∧
    t.trace = s.trace ++ [.sent (s.x r1)] ∧ t.device = s.device ∧ SameRegs s t ∧ t.pc = s.pc ∧
    t.flags = s.flags ∧ t.halted = s.halted ∧ SameMem s t

/-! ### Bitwise and shifts -/

/-- R130, R131, R132, R133: AND, OR, XOR and NOT complete with every bit of r1 the stated function of the
operands' bits and nothing else changed. -/
def Obligations.BitwiseResultsBitByBit : Prop :=
  ∀ (r1 r2 : Reg) (s : State),
    (∃ t v, exec (.and r1 r2) s = .next t ∧ WritesOnly r1 v s t ∧
      ∀ k, k < 32 → v.getLsbD k = ((s.x r1).getLsbD k && (s.x r2).getLsbD k)) ∧
    (∃ t v, exec (.or r1 r2) s = .next t ∧ WritesOnly r1 v s t ∧
      ∀ k, k < 32 → v.getLsbD k = ((s.x r1).getLsbD k || (s.x r2).getLsbD k)) ∧
    (∃ t v, exec (.xor r1 r2) s = .next t ∧ WritesOnly r1 v s t ∧
      ∀ k, k < 32 → v.getLsbD k = ((s.x r1).getLsbD k != (s.x r2).getLsbD k)) ∧
    (∃ t v, exec (.not r1 r2) s = .next t ∧ WritesOnly r1 v s t ∧
      ∀ k, k < 32 → v.getLsbD k = !((s.x r1).getLsbD k))

/-- R134, R136: SHL completes with (x[r1] * 2^s) mod 2^32 in r1, s the whole 32-bit amount, 0 from s = 32
on, and nothing else changed. -/
def Obligations.ShiftLeftByTheWholeAmount : Prop :=
  ∀ (r1 r2 : Reg) (s : State), ∃ t v, exec (.shl r1 r2) s = .next t ∧ WritesOnly r1 v s t ∧
    v.toNat = ((s.x r1).toNat * 2 ^ (s.x r2).toNat) % 2 ^ 32 ∧ (32 ≤ (s.x r2).toNat → v = 0)

/-- R135, R136: SHR completes with floor(x[r1] / 2^s) in r1, s the whole 32-bit amount, 0 from s = 32 on,
and nothing else changed. -/
def Obligations.ShiftRightIsLogicalByTheWholeAmount : Prop :=
  ∀ (r1 r2 : Reg) (s : State), ∃ t v, exec (.shr r1 r2) s = .next t ∧ WritesOnly r1 v s t ∧
    v.toNat = (s.x r1).toNat / 2 ^ (s.x r2).toNat ∧ (32 ≤ (s.x r2).toNat → v = 0)

/-! ### Compare and jumps -/

/-- R24, R150: CMP completes with Z, N and O of the wrapped difference at bits 0, 1 and 2, bits 7:3 zero,
and nothing else changed; O is the unsigned borrow. In the alternative mode, where a step runs CMP as
`execUnder .signed`, O is the two's-complement overflow and all else is the same. The modes are the
spec's decision D6, and the formula of the alternative one is its general knowledge (log 14). -/
def Obligations.CompareSetsTheFlags : Prop :=
  ∀ (r1 r2 : Reg) (s : State) (a b diff : Word),
    a = s.x r1 → b = s.x r2 → (diff.toNat : Int) = (a.toNat - b.toNat : Int) % 2 ^ 32 →
    (∃ t, exec (.cmp r1 r2) s = .next t ∧
      FlagsOnly (decide (diff.toNat = 0)) (diff.getLsbD 31) (decide (a.toNat < b.toNat)) s t) ∧
    (∃ t, execUnder .signed (.cmp r1 r2) s = .next t ∧
      FlagsOnly (decide (diff.toNat = 0)) (diff.getLsbD 31)
        (a.getLsbD 31 != b.getLsbD 31 && diff.getLsbD 31 != a.getLsbD 31) s t)

/-- R150 (the corner case on orders): after CMP in the default mode, a < b unsigned is exactly O, and
a > b unsigned is exactly neither Z nor O. -/
def Obligations.CompareOrdersUnsigned : Prop :=
  ∀ (r1 r2 : Reg) (s : State), ∃ t, exec (.cmp r1 r2) s = .next t ∧
    (t.flagO = true ↔ (s.x r1).toNat < (s.x r2).toNat) ∧
    (t.flagZ = false ∧ t.flagO = false ↔ (s.x r2).toNat < (s.x r1).toNat)

/-- R160: JMP completes with all 32 bits of x[r1] in pc, whatever the value, and nothing else changed. (The
width is the spec's decision D7, log 10.) -/
def Obligations.JumpLoadsTheWholeRegister : Prop :=
  ∀ (r1 r2 : Reg) (s : State), ∃ t, exec (.jmp r1 r2) s = .next t ∧ JumpsOnly (s.x r1) s t

/-- R6, R150: CMP_OVERFLOW_MODE bears on CMP alone and there on the O bit alone. In the default mode the
execute stage is `exec`; every instruction but CMP executes the same in either mode; and the two states
CMP answers in the two modes differ in no bit but flag bit 2. (The modes are the spec's decision D6, log
14.) -/
def Obligations.OverflowModeBearsOnCompareAlone : Prop :=
  ∀ (i : Instr) (s : State),
    execUnder .unsignedBorrow i s = exec i s ∧
    ((∀ r1 r2, i ≠ .cmp r1 r2) → ∀ mode, execUnder mode i s = exec i s) ∧
    (∀ r1 r2, i = .cmp r1 r2 → ∃ t u, exec i s = .next t ∧ execUnder .signed i s = .next u ∧
      (∀ k, k ≠ 2 → u.flags.getLsbD k = t.flags.getLsbD k) ∧ u = { t with flags := u.flags })

/-- R161: JE completes, taken iff Z (bit 0) is set; not taken it leaves pc. (The flags' bits in these
four statements are R24's, by the spec's decision D4, log 12.) -/
def Obligations.JumpIfEqualReadsZ : Prop :=
  ∀ (r1 r2 : Reg) (s : State), ∃ t, exec (.je r1 r2) s = .next t ∧
    JumpsOnly (if s.flags.getLsbD 0 = true then s.x r1 else s.pc) s t

/-- R162: JNE completes, taken iff Z (bit 0) is clear; not taken it leaves pc. -/
def Obligations.JumpIfNotEqualReadsZ : Prop :=
  ∀ (r1 r2 : Reg) (s : State), ∃ t, exec (.jne r1 r2) s = .next t ∧
    JumpsOnly (if s.flags.getLsbD 0 = false then s.x r1 else s.pc) s t

/-- R163: JG completes, taken iff Z (bit 0) and N (bit 1) are clear; not taken it leaves pc. -/
def Obligations.JumpIfGreaterReadsZAndN : Prop :=
  ∀ (r1 r2 : Reg) (s : State), ∃ t, exec (.jg r1 r2) s = .next t ∧
    JumpsOnly (if s.flags.getLsbD 0 = false ∧ s.flags.getLsbD 1 = false then s.x r1 else s.pc) s t

/-- R164: JL completes, taken iff N (bit 1) is set; not taken it leaves pc. -/
def Obligations.JumpIfLessReadsN : Prop :=
  ∀ (r1 r2 : Reg) (s : State), ∃ t, exec (.jl r1 r2) s = .next t ∧
    JumpsOnly (if s.flags.getLsbD 1 = true then s.x r1 else s.pc) s t

/-- R150, R161, R163, R164: after CMP a, b with diff the wrapped difference, JE is taken exactly when
diff = 0, JG exactly when it is in 1 to 0x7FFFFFFF, JL exactly when it is 0x80000000 or more; so exactly
one of the three is taken. The jumps run with pc anywhere but at their target. -/
def Obligations.AfterCompareExactlyOneJumpIsTaken : Prop :=
  ∀ (r1 r2 j a : Reg) (s t u : State) (pc : Word) (diff : Nat),
    exec (.cmp r1 r2) s = .next t → u = { t with pc := pc } → pc ≠ s.x j →
    (diff : Int) = ((s.x r1).toNat - (s.x r2).toNat : Int) % 2 ^ 32 →
    ∃ e g l, exec (.je j a) u = .next e ∧ exec (.jg j a) u = .next g ∧ exec (.jl j a) u = .next l ∧
      (e.pc = s.x j ↔ diff = 0) ∧ (g.pc = s.x j ↔ 1 ≤ diff ∧ diff ≤ 0x7FFFFFFF) ∧
      (l.pc = s.x j ↔ 0x80000000 ≤ diff)

/-- R23, R70, R160: a jump to 65536 or above is accepted, and the next step raises OutOfBounds(target) at
its first fetch, the target standing as ia too. -/
def Obligations.JumpBeyondMemoryFaultsAtTheNextFetch : Prop :=
  ∀ (p : Params) (r1 r2 : Reg) (s : State), s.halted = false → 65536 ≤ (s.x r1).toNat →
    ∃ t, exec (.jmp r1 r2) s = .next t ∧ stepUnder p t = .fault (.outOfBounds (s.x r1) (s.x r1))

/-! ### Halting, runs and the host -/

/-- R180: HALT completes with halted set and nothing else changed, and a run that reaches the state it
leaves ends there with the report of all eight registers and the flags byte. -/
def Obligations.HaltStopsTheEngine : Prop :=
  ∀ (r1 r2 : Reg) (s : State), ∃ t, exec (.halt r1 r2) s = .next t ∧ t.halted = true ∧ SameRegs s t ∧
    t.pc = s.pc ∧ t.flags = s.flags ∧ SameMem s t ∧ SameIo s t ∧
    ∀ k, run k t = .halted t ⟨s.regs, s.flags⟩

/-- R235: run() on a halted engine executes no instruction: however many steps it may take, the state is
unchanged and the report is given again. (The policy is the spec's decision D11, log 23.) -/
def Obligations.RunOnHaltedEngineIsNoOp : Prop :=
  ∀ (p : Params) (k : Nat) (s : State), s.halted = true →
    runUnder p k s = .halted s ⟨s.regs, s.flags⟩

/-- R207, R231, R236: a fault ends the run at once: the run is faulted with that fault, halted is not set,
no report is made, and the engine left has no further run until it is reinitialised. A faulted engine stays
faulted, with the same fault and no run, whatever else its owner or its device does. Reinitialising
constructs the engine afresh, with the device given and everything else as at reset, and a run of it is a
run from there. (That a faulted engine has no further step is the spec's decision D12, log 23; that the
state left is `stateLeftByFault` is the model's own form, log 6. The model's too, log 27: that an operation
not available answers none, that a faulted engine can be loaded, set up and answered, and that reinitialising
keeps the parameters.) -/
def Obligations.FaultEndsTheRun : Prop :=
  (∀ (e : Engine) (s : State) (f : Fault),
    e.phase = .idle s ∨ e.phase = .active s → s.halted = false → stepUnder e.params s = .fault f → ∀ k,
    ∃ e', (e.phase = .idle s → e.run (k + 1) = some (.faulted f (stateLeftByFault s), e')) ∧
      (e.phase = .active s → e.proceed (k + 1) = some (.faulted f (stateLeftByFault s), e')) ∧
      (stateLeftByFault s).halted = false ∧
      e'.params = e.params ∧ e'.phase = .faulted f (stateLeftByFault s)) ∧
  (∀ (e : Engine) (f : Fault) (left : State), e.phase = .faulted f left →
    (∀ j, e.run j = none ∧ e.proceed j = none) ∧
    (∀ n : Engine,
      (∃ image, e.loadProgram image = some n) ∨
      (∃ regs pc z n' o, e.setRegisters regs pc z n' o = some n) ∨
      (∃ a v, e.writeMemory a v = some n) ∨ (∃ v, n = e.answer v) →
      n.params = e.params ∧ ∃ left', n.phase = .faulted f left' ∧ ∀ j, n.run j = none ∧ n.proceed j = none) ∧
    (∀ d, e.reinitialise d = some (Engine.construct e.params d) ∧
      (Engine.construct e.params d).phase = .idle { State.reset with device := d } ∧
      ∀ j, ∃ n, (Engine.construct e.params d).run j = some (runUnder e.params j (construct d), n)))

/-- R231, R235: reinitialising is the only way out of HALTED. On a halted engine run() changes nothing and
reports again, and after a load, a harness's setup or an answer of the device it is still idle and halted.
(That run() executes nothing is the spec's decision D11, log 23, and that a load leaves halted its decision
D24, log 22; what a harness sets, and that reinitialising keeps the parameters, are the model's, log 27.) -/
def Obligations.OnlyReinitialisingLeavesHalted : Prop :=
  ∀ (e : Engine) (s : State), e.phase = .idle s → s.halted = true →
    (∀ k, e.run k = some (.halted s ⟨s.regs, s.flags⟩, e)) ∧
    (∀ k, e.proceed k = none) ∧
    (∀ n : Engine,
      (∃ image, e.loadProgram image = some n) ∨
      (∃ regs pc z n' o, e.setRegisters regs pc z n' o = some n) ∨
      (∃ a v, e.writeMemory a v = some n) ∨ (∃ v, n = e.answer v) →
      n.params = e.params ∧ ∃ t, n.phase = .idle t ∧ t.halted = true) ∧
    (∀ d, ∃ n t, e.reinitialise d = some n ∧ n.params = e.params ∧ n.phase = .idle t ∧ t.halted = false)

/-- R69, R238: a run that ended halted or faulted after some number of steps ends so, with the same state,
however many more it may take. (The count of steps is the model's form of run(), log 23.) -/
def Obligations.EndedRunsStayEnded : Prop :=
  ∀ (p : Params) (k j : Nat) (s t : State) (r : Report) (f : Fault),
    (runUnder p k s = .halted t r → runUnder p (k + j) s = .halted t r) ∧
    (runUnder p k s = .faulted f t → runUnder p (k + j) s = .faulted f t)

/-- R5, R46, R234: while a run is active no operation of the owner is available: no second run, no load, no
setup by a harness, no inspection, no reinitialising. While none is active all of them are, but for a run of
a faulted engine (R236): load, setup and a byte's write change the state as they say and leave the engine
idle, or faulted with the same fault, and its parameters as they were; inspection gives the state. The
model's, log 27: that an operation not available answers none, what a harness sets (the registers, pc and
the three flags), load and setup of a faulted engine, and that reinitialising keeps the parameters. That a
byte's write at 65536 or above answers none is log 28. -/
def Obligations.NoOperationDuringARun : Prop :=
  ∀ (e : Engine) (k : Nat) (image : List Byte) (regs : Vector Word 8) (pc a : Word) (z n o : Bool) (v : Byte)
      (d : Device),
    ((∃ s, e.phase = .active s) → e.run k = none ∧ e.loadProgram image = none ∧
      e.setRegisters regs pc z n o = none ∧ e.writeMemory a v = none ∧ e.inspect = none ∧
      e.reinitialise d = none) ∧
    ((∃ s, e.phase = .idle s) → (e.run k).isSome = true) ∧
    ((∃ f s, e.phase = .faulted f s) → e.run k = none) ∧
    (∀ (phaseAt : State → Phase) (s : State),
      (phaseAt = .idle ∨ ∃ f, phaseAt = .faulted f) → e.phase = phaseAt s →
      e.inspect = some s ∧
      (image.length ≤ 65536 → ∃ t, loadProgram image s = some t ∧
        e.loadProgram image = some ⟨e.params, phaseAt t⟩) ∧
      (65536 < image.length → e.loadProgram image = none) ∧
      e.setRegisters regs pc z n o =
        some ⟨e.params, phaseAt { s with regs := regs, pc := pc, flags := packFlags flagsLayout z n o }⟩ ∧
      (a.toNat < 65536 → ∃ t, e.writeMemory a v = some ⟨e.params, phaseAt t⟩ ∧
        readByte t.mem a = some v ∧ (∀ b : Word, b ≠ a → readByte t.mem b = readByte s.mem b) ∧
        t = { s with mem := t.mem }) ∧
      (65536 ≤ a.toNat → e.writeMemory a v = none) ∧
      e.reinitialise d = some (Engine.construct e.params d))

/-- R69, R120, R234: run() makes the run active, and the run is over only at a halt or a fault. While it goes
on or waits the engine is active; the turns of its loop that follow go on where it stood, so that counting
them all at once makes the same run; and one that waits for its device still waits until an answer is
supplied, then completes the INPUT with that answer and goes on. The steps counted are the model's form of
run() (log 23), that waiting is a refusal is log 3, the list of answers log 4, and the active phase log 27. -/
def Obligations.RunGoesOnUntilItEnds : Prop :=
  ∀ (e : Engine) (k j : Nat) (s t : State) (why : Refusal) (v : Word), e.phase = .idle s →
    ∃ r e', e.run k = some (r, e') ∧ r = runUnder e.params k s ∧ e'.params = e.params ∧
      ((∃ u, e'.phase = .active u) ↔ (∃ u, r = .running u) ∨ ∃ w u, r = .waiting w u) ∧
      (r = .running t → ∃ e'', e'.proceed j = some (runUnder e.params (k + j) s, e'') ∧
        e.run (k + j) = some (runUnder e.params (k + j) s, e'')) ∧
      (r = .waiting why t →
        e'.phase = .active t ∧ (∀ i, e'.proceed (i + 1) = some (r, e') ∧ e.run (k + i) = some (r, e')) ∧
        ∃ u e'', stepUnder e.params (supplyAnswer v t) = .next u ∧ u.trace = t.trace ++ [.received v] ∧
          u.pc = t.pc + 3#32 ∧ (∃ q, u.x q = v) ∧
          (e'.answer v).proceed (j + 1) = some (runUnder e.params j u, e''))

/-- R69, R238: a run's end says what it must: an engine reported halted has halted set and the report is of
its own registers and flags; one that faulted has it clear; one still running or waiting has it clear.
(Running, for too few steps counted, is the model's form, log 23; waiting is log 3, a fault's state log 6.) -/
def Obligations.RunEndsSayHowTheRunEnded : Prop :=
  ∀ (p : Params) (k : Nat) (s : State),
    match runUnder p k s with
    | .halted t r => t.halted = true ∧ r = ⟨t.regs, t.flags⟩
    | .faulted _ left => left.halted = false
    | .waiting why t => why = .waitingForInput ∧ t.halted = false ∧ stepUnder p t = .refused why
    | .running t => t.halted = false

/-- R69, R235, R238: run() and the host's repeated step tell the same of every run. Steps that all answer
a next state end in the halted state that run() reports, or in the state it is still running from; a
fault or a refusal of one is that of the other. So the runs without fault or refusal are those that run()
reports halted or still running. The equality at and after the halt rests on the model's step of a halted
engine, which answers next with the state unchanged (log 9), and `run`'s count of steps is the model's
form (log 23): both DESIGN CHOICES. -/
def Obligations.RunAgreesWithRepeatedSteps : Prop :=
  ∀ (k : Nat) (s : State),
    (match Host.Core.run Sys2Proof.core k s with
      | .next t => run k s = if t.halted = true then .halted t ⟨t.regs, t.flags⟩ else .running t
      | .fault f => ∃ left, run k s = .faulted f left
      | .refused r => ∃ t, run k s = .waiting r t) ∧
    (SafeFor k s ↔ ∃ t, run k s = .halted t ⟨t.regs, t.flags⟩ ∨ run k s = .running t)

/-- R46, R232: load_program of at most 65536 bytes writes byte i of the image at address i, leaves every
other byte, the registers, pc, flags, halted and the I/O; a longer image is refused. (The refusal is the
spec's decision D20, log 22.) The last clause, that the invariant is kept, is about the canonical form of
the memory list, the model's DESIGN CHOICE (log 18), of which neither rule speaks. -/
def Obligations.LoadProgramWritesTheImage : Prop :=
  ∀ (image : List Byte) (s : State),
    (image.length ≤ 65536 → ∃ t, loadProgram image s = some t ∧
      (∀ (a : Word) (h : a.toNat < image.length), readByte t.mem a = some image[a.toNat]) ∧
      (∀ a : Word, image.length ≤ a.toNat → readByte t.mem a = readByte s.mem a) ∧
      SameRegs s t ∧ t.pc = s.pc ∧ t.flags = s.flags ∧ t.halted = s.halted ∧ SameIo s t ∧
      (s.Inv → t.Inv)) ∧
    (65536 < image.length → loadProgram image s = none)
end

