-- ==== Sys2Proof/Laws/Decode.lean ====
section
/-! SUPPORT. Decoding and encoding: the operand byte, the opcode map's two look-ups, and what the decoder
can answer. -/

namespace Sys2Proof

@[simp] theorem Mnemonic.instr_mnemonic (k : Mnemonic) (r1 r2 : Reg) : (k.instr r1 r2).mnemonic = k := by
  cases k <;> rfl

@[simp] theorem Mnemonic.instr_operands (k : Mnemonic) (r1 r2 : Reg) : (k.instr r1 r2).operands = (r1, r2) := by
  cases k <;> rfl

/-- An instruction is its mnemonic and its two operands. -/
@[simp] theorem Instr.instr_mnemonic_operands (i : Instr) : i.mnemonic.instr i.operands.1 i.operands.2 = i := by
  cases i <;> rfl

theorem operandByte_toNat (r : Reg) : (operandByte r).toNat = r.val := by
  have := r.isLt
  simp only [operandByte, BitVec.toNat_ofNat]
  omega

@[simp] theorem operandReg_operandByte (r : Reg) : operandReg (operandByte r) = some r := by
  simp [operandReg, operandByte_toNat]

/-- An operand byte is accepted exactly when it is below 8 (R72). -/
theorem operandReg_eq_some {b : Byte} {r : Reg} : operandReg b = some r ↔ b.toNat = r.val := by
  unfold operandReg
  have := r.isLt
  split
  · simp [Fin.ext_iff]
  · simp only [reduceCtorEq, false_iff]
    omega

theorem operandReg_eq_none {b : Byte} : operandReg b = none ↔ 8 ≤ b.toNat := by
  simp [operandReg]

/-- A byte an operand was read from is that operand's byte. -/
theorem operandByte_of_operandReg {b : Byte} {r : Reg} (h : operandReg b = some r) : operandByte r = b := by
  apply BitVec.eq_of_toNat_eq
  rw [operandByte_toNat, operandReg_eq_some.mp h]

/-- A handler found by opcode stands in a row of the map. -/
theorem OpcodeMap.mem_of_handler {m : OpcodeMap} {op : Byte} {k : Mnemonic} (h : m.handler op = some k) :
    (op, k) ∈ m := by
  simp only [OpcodeMap.handler, Option.map_eq_some_iff] at h
  obtain ⟨row, hrow, rfl⟩ := h
  have hop : row.1 = op := by simpa using List.find?_some hrow
  exact hop ▸ List.mem_of_find?_eq_some hrow

theorem OpcodeMap.mem_of_code {m : OpcodeMap} {op : Byte} {k : Mnemonic} (h : m.code k = some op) :
    (op, k) ∈ m := by
  simp only [OpcodeMap.code, Option.map_eq_some_iff] at h
  obtain ⟨row, hrow, rfl⟩ := h
  have hk : row.2 = k := by simpa using List.find?_some hrow
  exact hk ▸ List.mem_of_find?_eq_some hrow

/-- Where no byte stands twice, a row is what its byte selects (R65: "one byte selects at most one
handler"). -/
theorem OpcodeMap.handler_of_mem {m : OpcodeMap} (hm : (m.map Prod.fst).Nodup) {op : Byte} {k : Mnemonic}
    (h : (op, k) ∈ m) : m.handler op = some k := by
  induction m with
  | nil => simp at h
  | cons row rest ih =>
    simp only [List.map_cons, List.nodup_cons] at hm
    rcases List.mem_cons.mp h with rfl | h
    · simp [OpcodeMap.handler]
    · have hne : row.1 ≠ op := fun he => hm.1 (List.mem_map.mpr ⟨_, h, he.symm⟩)
      simpa [OpcodeMap.handler, List.find?_cons, hne] using ih hm.2 h

/-- Where no mnemonic stands twice, a row's byte is its mnemonic's opcode (R65: "no two mnemonics share a
byte"). -/
theorem OpcodeMap.code_of_mem {m : OpcodeMap} (hm : (m.map Prod.snd).Nodup) {op : Byte} {k : Mnemonic}
    (h : (op, k) ∈ m) : m.code k = some op := by
  induction m with
  | nil => simp at h
  | cons row rest ih =>
    simp only [List.map_cons, List.nodup_cons] at hm
    rcases List.mem_cons.mp h with rfl | h
    · simp [OpcodeMap.code]
    · have hne : row.2 ≠ k := fun he => hm.1 (List.mem_map.mpr ⟨_, h, he.symm⟩)
      simpa [OpcodeMap.code, List.find?_cons, hne] using ih hm.2 h

/-- The decoder's answers, each with what brings it about (R71, R72, R74). -/
theorem decodeUnder_cases (m : OpcodeMap) (w : RawInsn) :
    (m.handler w.op = none ∧ decodeUnder m w = .error (.unknownOpcode w.op)) ∨
    (∃ k, m.handler w.op = some k ∧ (8 ≤ w.b1.toNat ∨ 8 ≤ w.b2.toNat) ∧
      decodeUnder m w = .error (.illegalOperand w.b1 w.b2)) ∨
    (∃ k r1 r2, m.handler w.op = some k ∧ w.b1.toNat = r1.val ∧ w.b2.toNat = r2.val ∧
      decodeUnder m w = .ok (k.instr r1 r2)) := by
  unfold decodeUnder
  cases hk : m.handler w.op with
  | none => simp
  | some k =>
    refine .inr ?_
    cases h1 : operandReg w.b1 with
    | none => exact .inl ⟨k, rfl, .inl (operandReg_eq_none.mp h1), rfl⟩
    | some r1 =>
      cases h2 : operandReg w.b2 with
      | none => exact .inl ⟨k, rfl, .inr (operandReg_eq_none.mp h2), rfl⟩
      | some r2 => exact .inr ⟨k, r1, r2, rfl, operandReg_eq_some.mp h1, operandReg_eq_some.mp h2, rfl⟩

end Sys2Proof
end

