-- ==== Sys2Proof/Laws/Engine.lean ====
section
/-! SUPPORT. The engine's shared operations, each said once. `phaseAt` stands for either kind of phase in
which no run is active: idle, or faulted with some fault. -/

namespace Sys2Proof.Machine

/-- A change between runs is made to the engine's state and to nothing else of it. -/
theorem Engine.betweenRuns_of_no_run {e : Engine} {s : State} {phaseAt : State → Phase}
    (hp : phaseAt = .idle ∨ ∃ f, phaseAt = .faulted f) (h : e.phase = phaseAt s)
    (change : State → Option State) :
    e.betweenRuns change = (change s).map fun t => ⟨e.params, phaseAt t⟩ := by
  rcases hp with rfl | ⟨f, rfl⟩ <;> simp only [Engine.betweenRuns, h]

/-- During a run no change is made. -/
theorem Engine.betweenRuns_of_active {e : Engine} {s : State} (h : e.phase = .active s)
    (change : State → Option State) : e.betweenRuns change = none := by
  simp only [Engine.betweenRuns, h]

/-- An answer goes to the device in whatever phase the engine is. -/
theorem Engine.answer_eq {e : Engine} {s : State} {phaseAt : State → Phase}
    (hp : phaseAt = .idle ∨ phaseAt = .active ∨ ∃ f, phaseAt = .faulted f) (h : e.phase = phaseAt s) (v : Word) :
    e.answer v = ⟨e.params, phaseAt (supplyAnswer v s)⟩ := by
  rcases hp with rfl | rfl | ⟨f, rfl⟩ <;> simp only [Engine.answer, h]

@[simp] theorem supplyAnswer_halted (v : Word) (s : State) : (supplyAnswer v s).halted = s.halted := by
  unfold supplyAnswer
  split <;> rfl

end Sys2Proof.Machine
end

