-- ==== Sys2Proof/Laws/Memory.lean ====
section
/-! SUPPORT. Memory: what a byte reads as after a write, and that every operation keeps the canonical
form. The reading laws hold of any list of cells, canonical or not. -/

namespace Sys2Proof.Machine

/-! ### Reading after writing -/

theorem Memory.get_erase (m : Memory) (a b : Nat) :
    (m.erase a).get b = if b = a then Config.unlistedByte else m.get b := by
  induction m with
  | nil => simp [Memory.erase, Memory.get]
  | cons c rest ih =>
    simp only [Memory.erase] at ih ⊢
    by_cases hc : c.1 = a
    · rw [List.filter_cons_of_neg (by simp [hc]), ih]
      by_cases hb : b = a
      · simp [hb]
      · simp [hb, Memory.get, show c.1 ≠ b from fun h => hb (h ▸ hc)]
    · rw [List.filter_cons_of_pos (by simpa using hc), Memory.get, ih]
      by_cases hb : c.1 = b
      · simp [hb, Memory.get, show b ≠ a from fun h => hc (hb.trans h)]
      · simp [hb, Memory.get]

theorem Memory.get_insert (m : Memory) (new : Host.Cell) (b : Nat) (h : m.get new.1 = Config.unlistedByte)
    (hm : ∀ c ∈ m, c.1 ≠ new.1) : (m.insert new).get b = if b = new.1 then new.2 else m.get b := by
  induction m with
  | nil => simp [Memory.insert, Memory.get, eq_comm]
  | cons c rest ih =>
    have hc : c.1 ≠ new.1 := hm c (by simp)
    simp only [Memory.insert]
    split
    · simp [Memory.get, eq_comm]
    · rw [Memory.get, ih (by simpa [Memory.get, hc] using h) fun d hd => hm d (by simp [hd])]
      by_cases hb : c.1 = b
      · simp [hb, Memory.get, show b ≠ new.1 from hb ▸ hc]
      · simp [hb, Memory.get]

theorem Memory.not_mem_erase (m : Memory) (a : Nat) : ∀ c ∈ m.erase a, c.1 ≠ a := by
  simp [Memory.erase]

/-- A byte after one write: the value written at the address written, and elsewhere as before. -/
theorem Memory.get_set (m : Memory) (a : Nat) (v : Byte) (b : Nat) :
    (m.set a v).get b = if b = a then v else m.get b := by
  unfold Memory.set
  split
  · next h => rw [Memory.get_erase, h]
  · rw [Memory.get_insert _ _ _ (by simp [Memory.get_erase]) (Memory.not_mem_erase m a), Memory.get_erase]
    by_cases hb : b = a <;> simp [hb]

@[simp] theorem Memory.get_set_same (m : Memory) (a : Nat) (v : Byte) : (m.set a v).get a = v := by
  simp [Memory.get_set]

theorem Memory.get_set_other (m : Memory) (a : Nat) (v : Byte) (b : Nat) (h : b ≠ a) :
    (m.set a v).get b = m.get b := by
  simp [Memory.get_set, h]

@[simp] theorem Memory.get_nil (a : Nat) : Memory.get [] a = 0 := rfl

/-- A byte after a block of bytes was written from `a` on. -/
theorem Memory.get_writeBytes (bs : List Byte) (m : Memory) (a b : Nat) :
    (writeBytes m a bs).get b = if h : a ≤ b ∧ b - a < bs.length then bs[b - a]'h.2 else m.get b := by
  induction bs generalizing m a with
  | nil => simp [writeBytes]
  | cons v rest ih =>
    rw [writeBytes, ih]
    by_cases hb : b = a
    · subst hb
      simp
    · by_cases hlt : a < b
      · obtain ⟨k, rfl⟩ : ∃ k, b = a + 1 + k := ⟨b - (a + 1), by omega⟩
        have hk : a + 1 + k - a = k + 1 := by omega
        simp [hk, show a ≤ a + 1 + k by omega, Memory.get_set, show a + 1 + k ≠ a by omega]
      · simp [Memory.get_set, hb, show ¬ a ≤ b by omega, show ¬ a + 1 ≤ b by omega]

/-! ### The canonical form -/

@[simp] theorem Memory.wf_nil : Memory.wf [] := by simp [Memory.wf]

theorem Memory.wf_erase {m : Memory} (h : m.wf) (a : Nat) : (m.erase a).wf :=
  ⟨h.1.filter _, fun c hc => h.2 c (List.mem_of_mem_filter hc)⟩

theorem Memory.mem_insert {m : Memory} {new c : Host.Cell} : c ∈ m.insert new ↔ c = new ∨ c ∈ m := by
  induction m with
  | nil => simp [Memory.insert]
  | cons d rest ih =>
    simp only [Memory.insert]
    split
    · simp
    · simp only [List.mem_cons, ih]
      tauto

theorem Memory.wf_insert {m : Memory} {new : Host.Cell} (h : m.wf) (hv : new.2 ≠ Config.unlistedByte)
    (ha : new.1 < Config.memSize) (hm : ∀ c ∈ m, c.1 ≠ new.1) : (m.insert new).wf := by
  refine ⟨?_, fun c hc => ?_⟩
  · induction m with
    | nil => simp [Memory.insert]
    | cons d rest ih =>
      have hd : d.1 ≠ new.1 := hm d (by simp)
      have hp := List.pairwise_cons.mp h.1
      simp only [Memory.insert]
      split
      · next hlt =>
        refine List.pairwise_cons.mpr ⟨fun c hc => ?_, h.1⟩
        rcases List.mem_cons.mp hc with rfl | hc
        · exact hlt
        · exact hlt.trans (hp.1 c hc)
      · refine List.pairwise_cons.mpr ⟨fun c hc => ?_, ?_⟩
        · rcases Memory.mem_insert.mp hc with rfl | hc
          · omega
          · exact hp.1 c hc
        · exact ih ⟨hp.2, fun c hc => h.2 c (by simp [hc])⟩ fun c hc => hm c (by simp [hc])
  · rcases Memory.mem_insert.mp hc with rfl | hc
    · exact ⟨hv, ha⟩
    · exact h.2 c hc

/-- One byte written at an address of the memory keeps the canonical form. -/
theorem Memory.wf_set {m : Memory} (h : m.wf) (a : Nat) (v : Byte) (ha : a < Config.memSize) :
    (m.set a v).wf := by
  unfold Memory.set
  split
  · exact Memory.wf_erase h a
  · next hv => exact Memory.wf_insert (Memory.wf_erase h a) hv ha (Memory.not_mem_erase m a)

/-- A block of bytes written inside the memory keeps the canonical form. -/
theorem Memory.wf_writeBytes (bs : List Byte) {m : Memory} (h : m.wf) (a : Nat)
    (ha : a + bs.length ≤ Config.memSize) : (writeBytes m a bs).wf := by
  induction bs generalizing m a with
  | nil => exact h
  | cons v rest ih =>
    simp only [List.length_cons] at ha
    exact ih (Memory.wf_set h a v (by omega)) (a + 1) (by omega)

/-- In canonical form a listed byte is found: reading an address gives the byte listed there. -/
theorem Memory.get_of_mem {m : Memory} (h : m.wf) {c : Host.Cell} (hc : c ∈ m) : m.get c.1 = c.2 := by
  induction m with
  | nil => simp at hc
  | cons d rest ih =>
    have hp := List.pairwise_cons.mp h.1
    rcases List.mem_cons.mp hc with rfl | hc
    · simp [Memory.get]
    · have hlt := hp.1 c hc
      simp only [Memory.get, show d.1 ≠ c.1 by omega, if_false]
      exact ih ⟨hp.2, fun e he => h.2 e (by simp [he])⟩ hc

theorem Memory.mem_of_get_ne {m : Memory} {a : Nat} (h : m.get a ≠ Config.unlistedByte) : (a, m.get a) ∈ m := by
  induction m with
  | nil => exact absurd rfl h
  | cons d rest ih =>
    by_cases hd : d.1 = a
    · subst hd
      simp [Memory.get]
    · simp only [Memory.get, hd, if_false] at h ⊢
      exact List.mem_cons_of_mem _ (ih h)

/-- Two memories in canonical form that read the same everywhere are the same list. -/
theorem Memory.ext_of_wf {m n : Memory} (hm : m.wf) (hn : n.wf) (h : ∀ a, m.get a = n.get a) : m = n := by
  have key : ∀ {p q : Memory}, p.wf → (∀ a, p.get a = q.get a) → ∀ c ∈ p, c ∈ q := by
    intro p q hp hpq c hc
    have hg := Memory.get_of_mem hp hc
    have hne := (hp.2 c hc).1
    have := Memory.mem_of_get_ne (m := q) (a := c.1) (by rw [← hpq, hg]; exact hne)
    rwa [← hpq, hg] at this
  refine List.Perm.eq_of_pairwise (le := fun c d : Host.Cell => c.1 < d.1) ?_ hm.1 hn.1 ?_
  · intro c d _ _ h1 h2
    omega
  · have nodup : ∀ {p : Memory}, p.wf → p.Nodup := fun hp =>
      hp.1.imp fun hlt heq => by rw [heq] at hlt; exact Nat.lt_irrefl _ hlt
    exact (List.perm_ext_iff_of_nodup (nodup hm) (nodup hn)).mpr fun c =>
      ⟨key hm h c, key hn (fun a => (h a).symm) c⟩

/-! ### The primitives, each said once -/

/-- readByte answers exactly where its bound check passes (R41). -/
theorem readByte_eq_some {m : Memory} {a : Word} {b : Byte} :
    readByte m a = some b ↔ a.toNat < Config.memSize ∧ m.get a.toNat = b := by
  unfold readByte
  split <;> simp <;> omega

theorem readByte_eq_none {m : Memory} {a : Word} : readByte m a = none ↔ Config.memSize ≤ a.toNat := by
  unfold readByte
  split <;> simp <;> omega

/-- writeByte answers exactly where its bound check passes (R42). -/
theorem writeByte_eq_some {m n : Memory} {a : Word} {v : Byte} :
    writeByte m a v = some n ↔ a.toNat < Config.memSize ∧ n = m.set a.toNat v := by
  unfold writeByte
  split <;> simp [eq_comm] <;> omega

theorem readWord_of_lt {m : Memory} {a : Word} (h : a.toNat + 3 < Config.memSize) :
    readWord m a = some (wordOfBytes (m.get a.toNat) (m.get (a.toNat + 1)) (m.get (a.toNat + 2)) (m.get (a.toNat + 3))) := by
  simp only [readWord, ge_iff_le]
  rw [if_neg (by omega)]

theorem readWord_of_ge {m : Memory} {a : Word} (h : Config.memSize ≤ a.toNat + 3) : readWord m a = none := by
  simp only [readWord, ge_iff_le]
  rw [if_pos h]

theorem writeWord_of_ge {m : Memory} {a v : Word} (h : Config.memSize ≤ a.toNat + 3) : writeWord m a v = none := by
  simp only [writeWord, ge_iff_le]
  rw [if_pos h]

/-- Everything a word write can do (R44): it answers exactly where all four bytes lie in memory, the
four bytes then hold the word's, the least significant first, every other byte is as before, and the
canonical form is kept. -/
theorem writeWord_spec {m : Memory} {a v : Word} (h : a.toNat + 3 < Config.memSize) :
    ∃ n, writeWord m a v = some n ∧
      (∀ k, k < 4 → n.get (a.toNat + k) = byteOf v k) ∧
      (∀ b, b < a.toNat ∨ a.toNat + 3 < b → n.get b = m.get b) ∧
      (m.wf → n.wf) := by
  refine ⟨_, by simp only [writeWord, ge_iff_le]; rw [if_neg (by omega)], ?_, ?_, ?_⟩
  · intro k hk
    have : k = 0 ∨ k = 1 ∨ k = 2 ∨ k = 3 := by omega
    rcases this with rfl | rfl | rfl | rfl <;> simp [Memory.get_set]
  · intro b hb
    simp only [Memory.get_set]
    rw [if_neg (by omega), if_neg (by omega), if_neg (by omega), if_neg (by omega)]
  · intro hm
    exact Memory.wf_set (Memory.wf_set (Memory.wf_set (Memory.wf_set hm _ _ (by omega)) _ _ (by omega)) _ _ (by omega)) _ _ (by omega)

/-- A word write that answers passed its bound check. -/
theorem lt_of_writeWord {m n : Memory} {a v : Word} (h : writeWord m a v = some n) : a.toNat + 3 < Config.memSize := by
  by_contra hc
  rw [writeWord_of_ge (by omega)] at h
  cases h

/-! ### Bytes of a word -/

/-- The four bytes of a word, put together again, are the word. -/
@[simp] theorem wordOfBytes_byteOf (v : Word) : wordOfBytes (byteOf v 0) (byteOf v 1) (byteOf v 2) (byteOf v 3) = v := by
  apply BitVec.eq_of_getLsbD_eq
  intro i hi
  simp only [wordOfBytes, byteOf, BitVec.getLsbD_append, BitVec.getLsbD_extractLsb']
  by_cases h1 : i < 8
  · simp [h1]
  by_cases h2 : i - 8 < 8
  · simp [h1, h2, show 8 + (i - 8) = i by omega]
  by_cases h3 : i - 8 - 8 < 8
  · simp [h1, h2, h3, show 16 + (i - 8 - 8) = i by omega]
  · simp [h1, h2, h3, show 24 + (i - 8 - 8 - 8) = i by omega, show i - 8 - 8 - 8 < 8 by omega]

/-- The unsigned value of a word of four bytes (R43, R47). -/
theorem wordOfBytes_toNat (b0 b1 b2 b3 : Byte) :
    (wordOfBytes b0 b1 b2 b3).toNat = b0.toNat + 256 * b1.toNat + 65536 * b2.toNat + 16777216 * b3.toNat := by
  have h0 := b0.isLt
  have h1 := b1.isLt
  have h2 := b2.isLt
  simp only [wordOfBytes, BitVec.toNat_append]
  rw [← Nat.shiftLeft_add_eq_or_of_lt h2, ← Nat.shiftLeft_add_eq_or_of_lt h1, ← Nat.shiftLeft_add_eq_or_of_lt h0]
  simp only [Nat.shiftLeft_eq]
  omega

end Sys2Proof.Machine
end

