-- ==== Sys2Proof/Laws/State.lean ====
section
/-! SUPPORT. One lemma per field per update of the state, so that no proof unfolds a record update. -/

namespace Sys2Proof.Machine

/-! ### x[r] <- v -/

@[simp] theorem State.setX_regs (s : State) (r : Reg) (v : Word) : (s.setX r v).regs = s.regs.set r v := rfl

@[simp] theorem State.setX_pc (s : State) (r : Reg) (v : Word) : (s.setX r v).pc = s.pc := rfl

@[simp] theorem State.setX_flags (s : State) (r : Reg) (v : Word) : (s.setX r v).flags = s.flags := rfl

@[simp] theorem State.setX_halted (s : State) (r : Reg) (v : Word) : (s.setX r v).halted = s.halted := rfl

@[simp] theorem State.setX_mem (s : State) (r : Reg) (v : Word) : (s.setX r v).mem = s.mem := rfl

@[simp] theorem State.setX_device (s : State) (r : Reg) (v : Word) : (s.setX r v).device = s.device := rfl

@[simp] theorem State.setX_trace (s : State) (r : Reg) (v : Word) : (s.setX r v).trace = s.trace := rfl

theorem State.setX_x (s : State) (r : Reg) (v : Word) (q : Reg) :
    (s.setX r v).x q = if q = r then v else s.x q := by
  simp [State.setX, State.x, Vector.getElem_set, Fin.ext_iff, eq_comm]

@[simp] theorem State.setX_x_same (s : State) (r : Reg) (v : Word) : (s.setX r v).x r = v := by
  simp [State.setX_x]

@[simp] theorem State.setX_x_other (s : State) (r : Reg) (v : Word) (q : Reg) (h : q ≠ r) :
    (s.setX r v).x q = s.x q := by
  simp [State.setX_x, h]

/-- Two states with the same fields are the same, the registers compared one by one. -/
theorem State.ext_fields {s t : State} (hx : ∀ q : Reg, s.x q = t.x q) (hpc : s.pc = t.pc)
    (hf : s.flags = t.flags) (hh : s.halted = t.halted) (hm : s.mem = t.mem)
    (hd : s.device = t.device) (ht : s.trace = t.trace) : s = t := by
  obtain ⟨regs, _, _, _, _, _, _⟩ := s
  obtain ⟨regs', _, _, _, _, _, _⟩ := t
  have hr : regs = regs' := Vector.ext fun i hi => hx ⟨i, hi⟩
  subst hr hpc hf hh hm hd ht
  rfl

/-- Every register of the reset state holds 0 (R230). -/
@[simp] theorem State.reset_x (q : Reg) : State.reset.x q = 0 := by
  simp [State.reset, State.x]

/-! ### pc <- v -/

@[simp] theorem State.setPc_regs (s : State) (v : Word) : (s.setPc v).regs = s.regs := rfl

@[simp] theorem State.setPc_pc (s : State) (v : Word) : (s.setPc v).pc = v := rfl

@[simp] theorem State.setPc_flags (s : State) (v : Word) : (s.setPc v).flags = s.flags := rfl

@[simp] theorem State.setPc_halted (s : State) (v : Word) : (s.setPc v).halted = s.halted := rfl

@[simp] theorem State.setPc_mem (s : State) (v : Word) : (s.setPc v).mem = s.mem := rfl

@[simp] theorem State.setPc_device (s : State) (v : Word) : (s.setPc v).device = s.device := rfl

@[simp] theorem State.setPc_trace (s : State) (v : Word) : (s.setPc v).trace = s.trace := rfl

@[simp] theorem State.setPc_x (s : State) (v : Word) (q : Reg) : (s.setPc v).x q = s.x q := rfl

/-! ### flags <- v -/

@[simp] theorem State.setFlags_regs (s : State) (v : Byte) : (s.setFlags v).regs = s.regs := rfl

@[simp] theorem State.setFlags_pc (s : State) (v : Byte) : (s.setFlags v).pc = s.pc := rfl

@[simp] theorem State.setFlags_flags (s : State) (v : Byte) : (s.setFlags v).flags = v := rfl

@[simp] theorem State.setFlags_halted (s : State) (v : Byte) : (s.setFlags v).halted = s.halted := rfl

@[simp] theorem State.setFlags_mem (s : State) (v : Byte) : (s.setFlags v).mem = s.mem := rfl

@[simp] theorem State.setFlags_device (s : State) (v : Byte) : (s.setFlags v).device = s.device := rfl

@[simp] theorem State.setFlags_trace (s : State) (v : Byte) : (s.setFlags v).trace = s.trace := rfl

@[simp] theorem State.setFlags_x (s : State) (v : Byte) (q : Reg) : (s.setFlags v).x q = s.x q := rfl

/-! ### halted <- b -/

@[simp] theorem State.setHalted_regs (s : State) (b : Bool) : (s.setHalted b).regs = s.regs := rfl

@[simp] theorem State.setHalted_pc (s : State) (b : Bool) : (s.setHalted b).pc = s.pc := rfl

@[simp] theorem State.setHalted_flags (s : State) (b : Bool) : (s.setHalted b).flags = s.flags := rfl

@[simp] theorem State.setHalted_halted (s : State) (b : Bool) : (s.setHalted b).halted = b := rfl

@[simp] theorem State.setHalted_mem (s : State) (b : Bool) : (s.setHalted b).mem = s.mem := rfl

@[simp] theorem State.setHalted_device (s : State) (b : Bool) : (s.setHalted b).device = s.device := rfl

@[simp] theorem State.setHalted_trace (s : State) (b : Bool) : (s.setHalted b).trace = s.trace := rfl

@[simp] theorem State.setHalted_x (s : State) (b : Bool) (q : Reg) : (s.setHalted b).x q = s.x q := rfl

/-! ### the memory replaced -/

@[simp] theorem State.setMem_regs (s : State) (m : Memory) : (s.setMem m).regs = s.regs := rfl

@[simp] theorem State.setMem_pc (s : State) (m : Memory) : (s.setMem m).pc = s.pc := rfl

@[simp] theorem State.setMem_flags (s : State) (m : Memory) : (s.setMem m).flags = s.flags := rfl

@[simp] theorem State.setMem_halted (s : State) (m : Memory) : (s.setMem m).halted = s.halted := rfl

@[simp] theorem State.setMem_mem (s : State) (m : Memory) : (s.setMem m).mem = m := rfl

@[simp] theorem State.setMem_device (s : State) (m : Memory) : (s.setMem m).device = s.device := rfl

@[simp] theorem State.setMem_trace (s : State) (m : Memory) : (s.setMem m).trace = s.trace := rfl

@[simp] theorem State.setMem_x (s : State) (m : Memory) (q : Reg) : (s.setMem m).x q = s.x q := rfl

/-! ### the device replaced -/

@[simp] theorem State.setDevice_regs (s : State) (d : Device) : (s.setDevice d).regs = s.regs := rfl

@[simp] theorem State.setDevice_pc (s : State) (d : Device) : (s.setDevice d).pc = s.pc := rfl

@[simp] theorem State.setDevice_flags (s : State) (d : Device) : (s.setDevice d).flags = s.flags := rfl

@[simp] theorem State.setDevice_halted (s : State) (d : Device) : (s.setDevice d).halted = s.halted := rfl

@[simp] theorem State.setDevice_mem (s : State) (d : Device) : (s.setDevice d).mem = s.mem := rfl

@[simp] theorem State.setDevice_device (s : State) (d : Device) : (s.setDevice d).device = d := rfl

@[simp] theorem State.setDevice_trace (s : State) (d : Device) : (s.setDevice d).trace = s.trace := rfl

@[simp] theorem State.setDevice_x (s : State) (d : Device) (q : Reg) : (s.setDevice d).x q = s.x q := rfl

/-! ### an I/O event recorded -/

@[simp] theorem State.record_regs (s : State) (e : IoEvent) : (s.record e).regs = s.regs := rfl

@[simp] theorem State.record_pc (s : State) (e : IoEvent) : (s.record e).pc = s.pc := rfl

@[simp] theorem State.record_flags (s : State) (e : IoEvent) : (s.record e).flags = s.flags := rfl

@[simp] theorem State.record_halted (s : State) (e : IoEvent) : (s.record e).halted = s.halted := rfl

@[simp] theorem State.record_mem (s : State) (e : IoEvent) : (s.record e).mem = s.mem := rfl

@[simp] theorem State.record_device (s : State) (e : IoEvent) : (s.record e).device = s.device := rfl

@[simp] theorem State.record_trace (s : State) (e : IoEvent) : (s.record e).trace = s.trace ++ [e] := rfl

@[simp] theorem State.record_x (s : State) (e : IoEvent) (q : Reg) : (s.record e).x q = s.x q := rfl

end Sys2Proof.Machine
end

