-- ==== Sys2Proof/Laws/Exec.lean ====
section
/-! SUPPORT. What a handler can do, said once: the shared operations' spec lemmas and one inversion lemma
for the next state of `exec` in either overflow mode. -/

namespace Sys2Proof.Machine

/-- A register write is all `setX` does. -/
theorem writesOnly_setX (s : State) (r : Reg) (v : Word) : WritesOnly r v s (s.setX r v) :=
  ⟨State.setX_x_same s r v, fun q hq => State.setX_x_other s r v q hq, rfl, rfl, rfl, fun _ => rfl, rfl, rfl⟩

/-- A two-operand instruction completes with its one register written. -/
theorem binaryOp_spec (f : Word → Word → Word) (r1 r2 : Reg) (s : State) :
    ∃ t, binaryOp f r1 r2 s = .next t ∧ WritesOnly r1 (f (s.x r1) (s.x r2)) s t :=
  ⟨_, rfl, writesOnly_setX s r1 _⟩

/-- A one-operand instruction completes with its one register written. -/
theorem unaryOp_spec (f : Word → Word) (r1 : Reg) (s : State) :
    ∃ t, unaryOp f r1 s = .next t ∧ WritesOnly r1 (f (s.x r1)) s t :=
  ⟨_, rfl, writesOnly_setX s r1 _⟩

/-- A jump completes with pc at its target if it is taken, and with nothing changed if not. -/
theorem jumpIf_spec (c : Bool) (r1 : Reg) (s : State) :
    ∃ t, jumpIf c r1 s = .next t ∧ JumpsOnly (if c then s.x r1 else s.pc) s t := by
  refine ⟨_, rfl, ?_⟩
  cases c
  · exact ⟨rfl, fun _ => rfl, rfl, rfl, fun _ => rfl, rfl, rfl⟩
  · exact ⟨rfl, fun _ => rfl, rfl, rfl, fun _ => rfl, rfl, rfl⟩

/-- What taking an answer can do: the device and the trace change, and the event is recorded. -/
theorem ioInput_cases {s t : State} {v : Word} (h : ioInput s = some (v, t)) :
    ∃ d, t = (s.setDevice d).record (.received v) ∧
      ((s.device = .free ∧ d = .free) ∨ ∃ rest, s.device = .queued (v :: rest) ∧ d = .queued rest) := by
  unfold ioInput at h
  split at h
  · next hd =>
    simp only [Option.some.injEq, Prod.mk.injEq] at h
    obtain ⟨rfl, rfl⟩ := h
    refine ⟨.free, ?_, .inl ⟨hd, rfl⟩⟩
    cases s
    simp only at hd
    subst hd
    rfl
  · cases h
  · next w rest hd =>
    simp only [Option.some.injEq, Prod.mk.injEq] at h
    obtain ⟨rfl, rfl⟩ := h
    exact ⟨_, rfl, .inr ⟨rest, hd, rfl⟩⟩

theorem ioInput_eq_none {s : State} : ioInput s = none ↔ s.device = .queued [] := by
  unfold ioInput
  split <;> simp_all

/-- Everything a handler can do to `s` when it answers `t`, one case a kind of effect. -/
abbrev EffectOf (mode : OverflowMode) (i : Instr) (s t : State) : Prop :=
    (∃ r v, destination i = some r ∧ jumpRegister i = none ∧ (∀ r1 r2, i ≠ .input r1 r2) ∧ t = s.setX r v) ∨
    (∃ r1 r2 v u, i = .input r1 r2 ∧ ioInput s = some (v, u) ∧ t = u.setX r1 v) ∨
    (∃ r1 r2 m, i = .store r1 r2 ∧ writeWord s.mem (s.x r2) (s.x r1) = some m ∧ t = s.setMem m) ∨
    (∃ r1 r2, i = .output r1 r2 ∧ t = s.record (.sent (s.x r1))) ∨
    (∃ r1 r2, i = .cmp r1 r2 ∧ t = s.setFlags (compareFlags flagsLayout mode (s.x r1) (s.x r2))) ∨
    (∃ r, jumpRegister i = some r ∧ destination i = none ∧ (t = s ∨ t = s.setPc (s.x r))) ∨
    (∃ r1 r2, i = .halt r1 r2 ∧ t = s.setHalted true)

/-- The inversion of `exec` where it answers a next state. -/
theorem exec_next_cases {i : Instr} {s t : State} (h : exec i s = .next t) :
    EffectOf cmpOverflowMode i s t := by
  have jump : ∀ (c : Bool) (r : Reg), jumpIf c r s = .next t → t = s ∨ t = s.setPc (s.x r) := by
    intro c r hj
    cases c <;> cases hj
    · exact .inl rfl
    · exact .inr rfl
  cases i with
  | div r1 r2 =>
    simp only [exec, execDiv] at h
    split at h
    · cases h
    · cases h
      exact .inl ⟨r1, _, rfl, rfl, by simp, rfl⟩
  | load r1 r2 =>
    simp only [exec, execLoad] at h
    split at h
    · cases h
      exact .inl ⟨r1, _, rfl, rfl, by simp, rfl⟩
    · cases h
  | store r1 r2 =>
    simp only [exec, execStore] at h
    split at h
    · next m hm =>
      cases h
      exact .inr (.inr (.inl ⟨r1, r2, m, rfl, hm, rfl⟩))
    · cases h
  | input r1 r2 =>
    simp only [exec, execInput] at h
    split at h
    · next v u hu =>
      cases h
      exact .inr (.inl ⟨r1, r2, v, u, rfl, hu, rfl⟩)
    · cases h
  | output r1 r2 => cases h; exact .inr (.inr (.inr (.inl ⟨r1, r2, rfl, rfl⟩)))
  | cmp r1 r2 => cases h; exact .inr (.inr (.inr (.inr (.inl ⟨r1, r2, rfl, rfl⟩))))
  | halt r1 r2 => cases h; exact .inr (.inr (.inr (.inr (.inr (.inr ⟨r1, r2, rfl, rfl⟩)))))
  | jmp r1 r2 | je r1 r2 | jne r1 r2 | jg r1 r2 | jl r1 r2 =>
    exact .inr (.inr (.inr (.inr (.inr (.inl ⟨r1, rfl, rfl, jump _ r1 h⟩)))))
  | add r1 r2 | sub r1 r2 | mul r1 r2 | and r1 r2 | or r1 r2 | xor r1 r2 | not r1 r2 | shl r1 r2 | shr r1 r2 =>
    cases h; exact .inl ⟨r1, _, rfl, rfl, by simp, rfl⟩

/-! ### The two overflow modes -/

/-- `exec` is the execute stage in the default mode. -/
@[simp] theorem execUnder_default (i : Instr) (s : State) : execUnder cmpOverflowMode i s = exec i s := by
  cases i <;> rfl

/-- The mode bears on CMP alone. -/
theorem execUnder_of_ne_cmp {mode : OverflowMode} {i : Instr} {s : State} (h : ∀ r1 r2, i ≠ .cmp r1 r2) :
    execUnder mode i s = exec i s := by
  cases i with
  | cmp r1 r2 => exact absurd rfl (h r1 r2)
  | _ => rfl

theorem execUnder_cmp (mode : OverflowMode) (r1 r2 : Reg) (s : State) :
    execUnder mode (.cmp r1 r2) s = compareUnder mode r1 r2 s := rfl

/-- The mode decides no fault: CMP raises none. -/
theorem execUnder_fault_iff {mode : OverflowMode} {i : Instr} {s : State} {f : Fault} :
    execUnder mode i s = .fault f ↔ exec i s = .fault f := by
  cases i with
  | cmp r1 r2 => exact ⟨fun h => (nomatch h), fun h => (nomatch h)⟩
  | _ => exact Iff.rfl

/-- The mode decides no refusal: CMP makes none. -/
theorem execUnder_refused_iff {mode : OverflowMode} {i : Instr} {s : State} {r : Refusal} :
    execUnder mode i s = .refused r ↔ exec i s = .refused r := by
  cases i with
  | cmp r1 r2 => exact ⟨fun h => (nomatch h), fun h => (nomatch h)⟩
  | _ => exact Iff.rfl

/-- Outside CMP the mode does not show in the inversion either, and CMP only ever writes the flags. -/
theorem execUnder_next_cases {mode : OverflowMode} {i : Instr} {s t : State}
    (h : execUnder mode i s = .next t) : EffectOf mode i s t := by
  by_cases hc : ∃ r1 r2, i = .cmp r1 r2
  · obtain ⟨r1, r2, rfl⟩ := hc
    cases h
    exact .inr (.inr (.inr (.inr (.inl ⟨r1, r2, rfl, rfl⟩))))
  · simp only [not_exists] at hc
    rw [execUnder_of_ne_cmp hc] at h
    rcases exec_next_cases h with h | h | h | h | ⟨r1, r2, hi, _⟩ | h | h
    · exact .inl h
    · exact .inr (.inl h)
    · exact .inr (.inr (.inl h))
    · exact .inr (.inr (.inr (.inl h)))
    · exact absurd hi (hc r1 r2)
    · exact .inr (.inr (.inr (.inr (.inr (.inl h)))))
    · exact .inr (.inr (.inr (.inr (.inr (.inr h)))))

end Sys2Proof.Machine
end

