-- ==== Sys2Proof/Laws/Fetch.lean ====
section
/-! SUPPORT. The fetch, said once: the three bytes where all of them lie in memory, OutOfBounds at the
first that does not (30_encoding.md R70). -/

namespace Sys2Proof.Machine

/-- The three bytes at pc. -/
def State.wordAtPc (s : State) : RawInsn :=
  ⟨s.mem.get s.pc.toNat, s.mem.get (s.pc.toNat + 1), s.mem.get (s.pc.toNat + 2)⟩

/-- The address a fetch fails at, where it fails: pc itself beyond memory, else the first address beyond
memory. It is also the pc the fetch leaves. -/
def State.fetchLimit (s : State) : Word := if s.pc.toNat < Config.memSize then 65536#32 else s.pc

theorem add_toNat_of_lt {v : Word} {k : Nat} (hk : v.toNat + k < 4294967296) :
    (v + BitVec.ofNat 32 k).toNat = v.toNat + k := by
  simp only [BitVec.toNat_add, BitVec.toNat_ofNat]
  omega

theorem fetchByte_of_lt {ia : Word} {s : State} (h : s.pc.toNat < Config.memSize) :
    fetchByte ia s = (.ok (s.mem.get s.pc.toNat), s.setPc (s.pc + 1#32)) := by
  simp [fetchByte, readByte_eq_some.mpr ⟨h, rfl⟩]

theorem fetchByte_of_ge {ia : Word} {s : State} (h : Config.memSize ≤ s.pc.toNat) :
    fetchByte ia s = (.error (.outOfBounds s.pc ia), s) := by
  simp [fetchByte, readByte_eq_none.mpr h]

/-- All three bytes lie in memory: they are fetched, and pc is advanced by 3. -/
theorem fetch_of_lt {s : State} (h : s.pc.toNat + 2 < Config.memSize) :
    fetch s = (.ok s.wordAtPc, s.setPc (s.pc + 3#32)) := by
  have hM : Config.memSize = 65536 := rfl
  have h1 : (s.pc + 1#32).toNat = s.pc.toNat + 1 := add_toNat_of_lt (k := 1) (by omega)
  have e2 : s.pc + 1#32 + 1#32 = s.pc + 2#32 := by rw [BitVec.add_assoc]; rfl
  have h2 : (s.pc + 2#32).toNat = s.pc.toNat + 2 := add_toNat_of_lt (k := 2) (by omega)
  have e3 : s.pc + 2#32 + 1#32 = s.pc + 3#32 := by rw [BitVec.add_assoc]; rfl
  unfold fetch
  rw [fetchByte_of_lt (by omega)]
  dsimp only
  rw [fetchByte_of_lt (by rw [State.setPc_pc, h1]; omega)]
  dsimp only
  rw [fetchByte_of_lt (by rw [State.setPc_pc, State.setPc_pc, e2, h2]; omega)]
  simp only [State.setPc_pc, State.setPc_mem, e2, e3, h1, h2]
  rfl

/-- Some byte does not lie in memory: OutOfBounds at the first such, pc left there. -/
theorem fetch_of_ge {s : State} (h : Config.memSize ≤ s.pc.toNat + 2) :
    fetch s = (.error (.outOfBounds s.fetchLimit s.pc), s.setPc s.fetchLimit) := by
  have e2 : s.pc + 1#32 + 1#32 = s.pc + 2#32 := by rw [BitVec.add_assoc]; rfl
  have hM : Config.memSize = 65536 := rfl
  by_cases h0 : s.pc.toNat < Config.memSize
  · have hl : s.fetchLimit = 65536#32 := by simp only [State.fetchLimit, h0, if_true]
    have h1 : (s.pc + 1#32).toNat = s.pc.toNat + 1 := add_toNat_of_lt (k := 1) (by omega)
    unfold fetch
    rw [fetchByte_of_lt h0]
    dsimp only
    by_cases hc : s.pc.toNat + 1 < Config.memSize
    · have h2 : (s.pc + 2#32).toNat = s.pc.toNat + 2 := add_toNat_of_lt (k := 2) (by omega)
      have hp : s.pc + 2#32 = 65536#32 := BitVec.eq_of_toNat_eq (by rw [h2]; simp; omega)
      rw [fetchByte_of_lt (by rw [State.setPc_pc, h1]; omega)]
      dsimp only
      rw [fetchByte_of_ge (by rw [State.setPc_pc, State.setPc_pc, e2, h2]; omega)]
      simp only [State.setPc_pc, e2, hp, hl]
      rfl
    · have hp : s.pc + 1#32 = 65536#32 := BitVec.eq_of_toNat_eq (by rw [h1]; simp; omega)
      rw [fetchByte_of_ge (by rw [State.setPc_pc, h1]; omega)]
      simp only [State.setPc_pc, hp, hl]
  · have hl : s.fetchLimit = s.pc := by simp only [State.fetchLimit, h0, if_false]
    unfold fetch
    rw [fetchByte_of_ge (by omega), hl]
    rfl

end Sys2Proof.Machine
end

