-- ==== Sys2Proof/Laws/Flags.lean ====
section
/-! SUPPORT. The flags byte: each flag read back from the packed byte, and its reserved bits (10_state.md
R24). -/

namespace Sys2Proof.Machine

/-- The eight bits of a packed flags byte under the layout of R24. -/
theorem packFlags_getLsbD (z n o : Bool) (k : Nat) :
    (packFlags flagsLayout z n o).getLsbD k =
      if k = 0 then z else if k = 1 then n else if k = 2 then o else false := by
  by_cases h : k < 8
  · have : k = 0 ∨ k = 1 ∨ k = 2 ∨ k = 3 ∨ k = 4 ∨ k = 5 ∨ k = 6 ∨ k = 7 := by omega
    rcases this with rfl | rfl | rfl | rfl | rfl | rfl | rfl | rfl <;>
      (cases z <;> cases n <;> cases o <;> rfl)
  · rw [BitVec.getLsbD_of_ge _ _ (by omega)]
    simp [show k ≠ 0 by omega, show k ≠ 1 by omega, show k ≠ 2 by omega]

/-- A packed flags byte has its reserved bits clear. -/
theorem packFlags_reserved (z n o : Bool) : packFlags flagsLayout z n o &&& reservedFlags = 0 := by
  cases z <;> cases n <;> cases o <;> rfl

/-- What the three flags are after CMP (R150). -/
theorem flags_of_compare (s : State) (mode : OverflowMode) (a b : Word) :
    (s.setFlags (compareFlags flagsLayout mode a b)).flagZ = (a - b == 0) ∧
    (s.setFlags (compareFlags flagsLayout mode a b)).flagN = (a - b).msb ∧
    (s.setFlags (compareFlags flagsLayout mode a b)).flagO = subOverflow mode a b := by
  exact ⟨packFlags_getLsbD _ _ _ 0, packFlags_getLsbD _ _ _ 1, packFlags_getLsbD _ _ _ 2⟩

end Sys2Proof.Machine
end

