-- ==== Sys2Proof/Laws/PerInstr.lean ====
section
/-! SUPPORT. Statements made instruction by instruction. LegalWord: under the default map an instruction
encodes as a legal three-byte word (30_encoding.md R60, R65, R74) whose operand bytes are its register
indices (R61). -/

namespace Sys2Proof

/-- The instruction's word under the default map is legal, its opcode is in 0x40 to 0xFF, and its second
and third bytes are its registers' indices. -/
def Laws.LegalWord.Statement (i : Instr) : Prop :=
  ∃ w, encode i = some w ∧ w.WellFormed defaultOpcodeMap ∧ 0x40 ≤ w.op.toNat ∧
    w.b1.toNat = i.operands.1.val ∧ w.b2.toNat = i.operands.2.val

/-- The shared argument: the opcode's row is in the map, and a register's byte is its index. -/
theorem Laws.LegalWord.of_code {i : Instr} {op : Byte} (hc : defaultOpcodeMap.code i.mnemonic = some op)
    (hk : (defaultOpcodeMap.handler op).isSome = true) (ho : 0x40 ≤ op.toNat) : Laws.LegalWord.Statement i := by
  have h1 := operandByte_toNat i.operands.1
  have h2 := operandByte_toNat i.operands.2
  exact ⟨⟨op, operandByte i.operands.1, operandByte i.operands.2⟩, by rw [encode, encodeUnder, hc]; rfl,
    ⟨hk, h1.trans_lt i.operands.1.isLt, h2.trans_lt i.operands.2.isLt⟩, ho, h1, h2⟩

theorem Laws.LegalWord.add (r1 r2 : Reg) : Laws.LegalWord.Statement (.add r1 r2) :=
  Laws.LegalWord.of_code (op := 0x40) rfl (by decide) (by decide)

theorem Laws.LegalWord.sub (r1 r2 : Reg) : Laws.LegalWord.Statement (.sub r1 r2) :=
  Laws.LegalWord.of_code (op := 0x41) rfl (by decide) (by decide)

theorem Laws.LegalWord.mul (r1 r2 : Reg) : Laws.LegalWord.Statement (.mul r1 r2) :=
  Laws.LegalWord.of_code (op := 0x42) rfl (by decide) (by decide)

theorem Laws.LegalWord.div (r1 r2 : Reg) : Laws.LegalWord.Statement (.div r1 r2) :=
  Laws.LegalWord.of_code (op := 0x43) rfl (by decide) (by decide)

theorem Laws.LegalWord.load (r1 r2 : Reg) : Laws.LegalWord.Statement (.load r1 r2) :=
  Laws.LegalWord.of_code (op := 0x50) rfl (by decide) (by decide)

theorem Laws.LegalWord.store (r1 r2 : Reg) : Laws.LegalWord.Statement (.store r1 r2) :=
  Laws.LegalWord.of_code (op := 0x51) rfl (by decide) (by decide)

theorem Laws.LegalWord.input (r1 r2 : Reg) : Laws.LegalWord.Statement (.input r1 r2) :=
  Laws.LegalWord.of_code (op := 0x60) rfl (by decide) (by decide)

theorem Laws.LegalWord.output (r1 r2 : Reg) : Laws.LegalWord.Statement (.output r1 r2) :=
  Laws.LegalWord.of_code (op := 0x61) rfl (by decide) (by decide)

theorem Laws.LegalWord.and (r1 r2 : Reg) : Laws.LegalWord.Statement (.and r1 r2) :=
  Laws.LegalWord.of_code (op := 0x70) rfl (by decide) (by decide)

theorem Laws.LegalWord.or (r1 r2 : Reg) : Laws.LegalWord.Statement (.or r1 r2) :=
  Laws.LegalWord.of_code (op := 0x71) rfl (by decide) (by decide)

theorem Laws.LegalWord.xor (r1 r2 : Reg) : Laws.LegalWord.Statement (.xor r1 r2) :=
  Laws.LegalWord.of_code (op := 0x72) rfl (by decide) (by decide)

theorem Laws.LegalWord.not (r1 r2 : Reg) : Laws.LegalWord.Statement (.not r1 r2) :=
  Laws.LegalWord.of_code (op := 0x73) rfl (by decide) (by decide)

theorem Laws.LegalWord.shl (r1 r2 : Reg) : Laws.LegalWord.Statement (.shl r1 r2) :=
  Laws.LegalWord.of_code (op := 0x74) rfl (by decide) (by decide)

theorem Laws.LegalWord.shr (r1 r2 : Reg) : Laws.LegalWord.Statement (.shr r1 r2) :=
  Laws.LegalWord.of_code (op := 0x75) rfl (by decide) (by decide)

theorem Laws.LegalWord.cmp (r1 r2 : Reg) : Laws.LegalWord.Statement (.cmp r1 r2) :=
  Laws.LegalWord.of_code (op := 0x80) rfl (by decide) (by decide)

theorem Laws.LegalWord.jmp (r1 r2 : Reg) : Laws.LegalWord.Statement (.jmp r1 r2) :=
  Laws.LegalWord.of_code (op := 0x90) rfl (by decide) (by decide)

theorem Laws.LegalWord.je (r1 r2 : Reg) : Laws.LegalWord.Statement (.je r1 r2) :=
  Laws.LegalWord.of_code (op := 0x91) rfl (by decide) (by decide)

theorem Laws.LegalWord.jne (r1 r2 : Reg) : Laws.LegalWord.Statement (.jne r1 r2) :=
  Laws.LegalWord.of_code (op := 0x92) rfl (by decide) (by decide)

theorem Laws.LegalWord.jg (r1 r2 : Reg) : Laws.LegalWord.Statement (.jg r1 r2) :=
  Laws.LegalWord.of_code (op := 0x93) rfl (by decide) (by decide)

theorem Laws.LegalWord.jl (r1 r2 : Reg) : Laws.LegalWord.Statement (.jl r1 r2) :=
  Laws.LegalWord.of_code (op := 0x94) rfl (by decide) (by decide)

theorem Laws.LegalWord.halt (r1 r2 : Reg) : Laws.LegalWord.Statement (.halt r1 r2) :=
  Laws.LegalWord.of_code (op := 0xFF) rfl (by decide) (by decide)

end Sys2Proof
end

