-- ==== Sys2Proof/Laws/Step.lean ====
section
/-! SUPPORT. What a turn of the loop can do, said once for all parameters (30_encoding.md R69 to
R73). -/

namespace Sys2Proof.Machine

@[simp] theorem step_eq_stepUnder (s : State) : step s = stepUnder defaultParams s := rfl

theorem stepUnder_of_halted {p : Params} {s : State} (h : s.halted = true) : stepUnder p s = .next s := by
  simp [stepUnder, h]

/-- A running engine whose three bytes lie in memory decodes them and executes, or raises the decoder's
fault. -/
theorem stepUnder_of_lt {p : Params} {s : State} (hh : s.halted = false)
    (h : s.pc.toNat + 2 < Config.memSize) :
    stepUnder p s = match decodeUnder p.opcodeMap s.wordAtPc with
      | .error e => .fault (decodeFault s.pc e)
      | .ok i => execUnder p.overflowMode i (s.setPc (s.pc + 3#32)) := by
  simp only [stepUnder, hh, fetch_of_lt h]
  rfl

/-- A running engine one of whose three bytes lies outside memory raises OutOfBounds. -/
theorem stepUnder_of_ge {p : Params} {s : State} (hh : s.halted = false)
    (h : Config.memSize ≤ s.pc.toNat + 2) :
    stepUnder p s = .fault (.outOfBounds s.fetchLimit s.pc) := by
  simp only [stepUnder, hh, fetch_of_ge h]
  rfl

/-- The inversion of a step that answers a next state: the engine was halted and is unchanged, or one
instruction was fetched, decoded and executed. -/
theorem stepUnder_next_cases {p : Params} {s t : State} (h : stepUnder p s = .next t) :
    (s.halted = true ∧ t = s) ∨
    (s.halted = false ∧ s.pc.toNat + 2 < Config.memSize ∧
      ∃ i, decodeUnder p.opcodeMap s.wordAtPc = .ok i ∧ execUnder p.overflowMode i (s.setPc (s.pc + 3#32)) = .next t) := by
  cases hh : s.halted with
  | true =>
    rw [stepUnder_of_halted hh] at h
    cases h
    exact .inl ⟨rfl, rfl⟩
  | false =>
    refine .inr ⟨rfl, ?_⟩
    by_cases hb : s.pc.toNat + 2 < Config.memSize
    · rw [stepUnder_of_lt hh hb] at h
      cases hd : decodeUnder p.opcodeMap s.wordAtPc with
      | error e => simp [hd] at h
      | ok i => exact ⟨hb, i, rfl, by simpa [hd] using h⟩
    · rw [stepUnder_of_ge hh (by omega)] at h
      cases h

end Sys2Proof.Machine
end

