-- ==== Sys2Proof/Tests/Slice0.lean ====
section
/-! SUPPORT. Tests of the model. Expected values are the spec's: the encodings of 30_encoding.md R66 and
R82, the vectors of 95_test_vectors.md (named in each comment) and the tables of 44_compare.md R151. The
witnesses at the end show, for each statement with hypotheses, a state and operands that meet them. -/

namespace Sys2Proof.Tests

open Sys2Proof.Machine

/-! ### Helpers -/

/-- The common start of 95_test_vectors.md section 2: an instruction at 0x100, pc there, the named
registers, flags and bytes set. -/
def start (op b1 b2 : Byte) (xs : List (Reg × Word)) (flags : Byte := 0) (bytes : List (Nat × Byte) := []) :
    State :=
  let mem := bytes.foldl (fun m c => m.set c.1 c.2) (writeBytes [] 0x100 [op, b1, b2])
  xs.foldl (fun s x => s.setX x.1 x.2) { State.reset with pc := 0x100, flags := flags, mem := mem }

def nextOf : Result → Option State
  | .next t => some t
  | .fault _ => none
  | .refused _ => none

def faultOf : Result → Option Fault
  | .next _ => none
  | .fault f => some f
  | .refused _ => none

/-- The machine with three bytes placed at an address and pc there. -/
def startAt (pc : Word) (op b1 b2 : Byte) : State :=
  { State.reset with pc := pc, mem := writeBytes [] pc.toNat [op, b1, b2] }

/-! ### Well-formedness: one ill-formed term for each check -/

theorem test_default_map_wellFormed : defaultOpcodeMap.WellFormed := by decide

/-- Another legal map: the default's bytes given to the mnemonics in the opposite order. -/
def reversedMap : OpcodeMap :=
  (defaultOpcodeMap.map Prod.fst).zip (defaultOpcodeMap.map Prod.snd).reverse

theorem test_reversed_map_wellFormed : reversedMap.WellFormed := by decide

theorem test_map_of_twenty_refused : ¬ OpcodeMap.WellFormed (defaultOpcodeMap.drop 1) := by decide

theorem test_map_byte_twice_refused : ¬ OpcodeMap.WellFormed ((0x41, .ADD) :: defaultOpcodeMap.drop 1) := by decide

theorem test_map_mnemonic_twice_refused : ¬ OpcodeMap.WellFormed ((0xFE, .SUB) :: defaultOpcodeMap.drop 1) := by decide

theorem test_map_low_byte_refused : ¬ OpcodeMap.WellFormed ((0x3F, .ADD) :: defaultOpcodeMap.drop 1) := by decide

theorem test_flags_layout_wellFormed : flagsLayout.WellFormed := by decide

theorem test_layouts_with_a_shared_bit_refused :
    ¬ FlagsLayout.WellFormed ⟨0, 0, 2⟩ ∧ ¬ FlagsLayout.WellFormed ⟨0, 1, 0⟩ ∧ ¬ FlagsLayout.WellFormed ⟨0, 1, 1⟩ := by
  decide

theorem test_word_wellFormed : RawInsn.WellFormed defaultOpcodeMap ⟨0x40, 7, 7⟩ := by decide

theorem test_word_unknown_opcode_refused : ¬ RawInsn.WellFormed defaultOpcodeMap ⟨0x44, 1, 2⟩ := by decide

theorem test_word_first_operand_refused : ¬ RawInsn.WellFormed defaultOpcodeMap ⟨0x40, 8, 0⟩ := by decide

theorem test_word_second_operand_refused : ¬ RawInsn.WellFormed defaultOpcodeMap ⟨0xFF, 0, 8⟩ := by decide

theorem test_instr_without_opcode_refused :
    Instr.WellFormed defaultOpcodeMap (.add 1 2) ∧ ¬ Instr.WellFormed (defaultOpcodeMap.drop 1) (.add 1 2) := by
  decide

theorem test_memory_forms_refused :
    Memory.wf [(0, 1), (65535, 2)] ∧ ¬ Memory.wf [(1, 1), (0, 2)] ∧ ¬ Memory.wf [(3, 1), (3, 2)] ∧
    ¬ Memory.wf [(0, 0)] ∧ ¬ Memory.wf [(65536, 1)] := by
  decide

/-! ### Decoding: one word per instruction, written out from R66 and R82 -/

theorem test_decode_arithmetic :
    decodeTableWord 24 0x400102 = some (.add 1 2) ∧ decodeTableWord 24 0x410607 = some (.sub 6 7) ∧
    decodeTableWord 24 0x420303 = some (.mul 3 3) ∧ decodeTableWord 24 0x430605 = some (.div 6 5) := by
  decide

theorem test_decode_memory :
    decodeTableWord 24 0x500304 = some (.load 3 4) ∧ decodeTableWord 24 0x510704 = some (.store 7 4) := by
  decide

theorem test_decode_io :
    decodeTableWord 24 0x600300 = some (.input 3 0) ∧ decodeTableWord 24 0x610100 = some (.output 1 0) := by
  decide

theorem test_decode_logic :
    decodeTableWord 24 0x700102 = some (.and 1 2) ∧ decodeTableWord 24 0x710102 = some (.or 1 2) ∧
    decodeTableWord 24 0x720102 = some (.xor 1 2) ∧ decodeTableWord 24 0x730703 = some (.not 7 3) ∧
    decodeTableWord 24 0x740405 = some (.shl 4 5) ∧ decodeTableWord 24 0x750102 = some (.shr 1 2) := by
  decide

theorem test_decode_compare : decodeTableWord 24 0x800003 = some (.cmp 0 3) := by decide

theorem test_decode_control :
    decodeTableWord 24 0x900400 = some (.jmp 4 0) ∧ decodeTableWord 24 0x910400 = some (.je 4 0) ∧
    decodeTableWord 24 0x920400 = some (.jne 4 0) ∧ decodeTableWord 24 0x930400 = some (.jg 4 0) ∧
    decodeTableWord 24 0x940500 = some (.jl 5 0) := by
  decide

theorem test_decode_halt : decodeTableWord 24 0xFF0000 = some (.halt 0 0) := by decide

/-- DEC-3 and DEC-4: bytes outside the map, and an operand byte of 8. -/
theorem test_decode_rejects :
    decode ⟨0x3F, 1, 2⟩ = .error (.unknownOpcode 0x3F) ∧ decode ⟨0xFE, 1, 2⟩ = .error (.unknownOpcode 0xFE) ∧
    decode ⟨0x40, 8, 0⟩ = .error (.illegalOperand 8 0) ∧
    decodeBytesUnder defaultOpcodeMap [0x40, 1] = .error .truncated := by
  exact ⟨rfl, rfl, rfl, rfl⟩

/-- R80, R82: `ADD R1, R0` is 40 01 00 and `HALT` is FF 00 00. -/
theorem test_encode_assembled :
    (assemble .ADD [1, 0]).bind encode = some ⟨0x40, 1, 0⟩ ∧ (assemble .HALT []).bind encode = some ⟨0xFF, 0, 0⟩ ∧
    (assemble .NOT [7]).bind encode = some ⟨0x73, 7, 0⟩ ∧ (assemble .NOT [7, 3]).bind encode = some ⟨0x73, 7, 3⟩ ∧
    assemble .ADD [1] = none := by
  decide

/-! ### The cycle -/

/-- DEC-2. -/
theorem test_unknown_opcode_before_operands :
    faultOf (step (start 0x00 9 9 [])) = some (.unknownOpcode 0x00 0x100) ∧
    (stateLeftByFault (start 0x00 9 9 [])).pc = 0x103 := by decide

/-- DEC-6: IllegalOperand comes before DivisionByZero. -/
theorem test_illegal_operand_before_handler :
    faultOf (step (start 0x43 1 0xFF [(1, 5)])) = some (.illegalOperand 1 0xFF 0x100) := by decide

/-- DEC-7 and DEC-8: the operand fetches at the top of memory. -/
theorem test_fetch_at_the_top :
    faultOf (step (startAt 0xFFFF 0xFF 0 0)) = some (.outOfBounds 0x10000 0xFFFF) ∧
    faultOf (step (startAt 0xFFFE 0x00 0 0)) = some (.outOfBounds 0x10000 0xFFFE) ∧
    (stateLeftByFault (startAt 0xFFFE 0x00 0 0)).pc = 0x10000 := by decide

/-- DEC-9: the last legal instruction address. -/
theorem test_halt_at_the_top :
    (nextOf (step (startAt 0xFFFD 0xFF 0 0))).map (fun t => (t.halted, t.pc)) = some (true, 0x10000) := by decide

/-- DEC-12: no wrap. -/
theorem test_fetch_beyond_memory :
    faultOf (step { State.reset with pc := 0xFFFFFFFF }) = some (.outOfBounds 0xFFFFFFFF 0xFFFFFFFF) := by decide

/-- DEC-10, and a step from reset with no program: memory reads 0x00 (R50). -/
theorem test_halted_and_empty :
    nextOf (step { State.reset with halted := true }) = some { State.reset with halted := true } ∧
    faultOf (step State.reset) = some (.unknownOpcode 0x00 0) := by decide

/-- A table word placed after reset runs as the next instruction. -/
theorem test_withFetchWord :
    (nextOf (step (State.reset.withFetchWord 24 0x730700))).map (fun t => (t.x 7, t.pc)) = some (0xFFFFFFFF, 3) ∧
    (nextOf (step (State.reset.withFetchWord 24 0x600000))).map (fun t => (t.pc, t.trace.length)) = some (3, 1) ∧
    (nextOf (step (State.reset.withFetchWord 24 0xFF0000))).map (fun t => (t.halted, t.pc)) = some (true, 3) := by
  decide

/-! ### One instruction each -/

/-- ARITH-1 and ARITH-4. -/
theorem test_add : (nextOf (step (start 0x40 1 2 [(1, 0xFFFFFFFF), (2, 1)] 0x06))).map
    (fun t => (t.x 1, t.x 2, t.pc, t.flags)) = some (0, 1, 0x103, 0x06) := by decide

/-- ARITH-3: the same register doubles. -/
theorem test_add_same : (nextOf (step (start 0x40 1 1 [(1, 0x80000001)]))).map (fun t => t.x 1) = some 2 := by decide

/-- ARITH-5. -/
theorem test_sub : (nextOf (step (start 0x41 1 2 [(1, 0), (2, 1)]))).map (fun t => (t.x 1, t.pc)) =
    some (0xFFFFFFFF, 0x103) := by decide

/-- ARITH-8. -/
theorem test_sub_order : (nextOf (step (start 0x41 6 7 [(7, 0xFFFFFFFF)]))).map (fun t => t.x 6) = some 1 := by decide

/-- ARITH-11. -/
theorem test_mul : (nextOf (step (start 0x42 1 2 [(1, 0x12345678), (2, 0x10)]))).map (fun t => (t.x 1, t.pc)) =
    some (0x23456780, 0x103) := by decide

/-- ARITH-10. -/
theorem test_mul_wraps : (nextOf (step (start 0x42 1 2 [(1, 0xFFFFFFFF), (2, 0xFFFFFFFF)]))).map (fun t => t.x 1) =
    some 1 := by decide

/-- ARITH-18: unsigned. -/
theorem test_div : (nextOf (step (start 0x43 1 2 [(1, 0xFFFFFFF6), (2, 2)]))).map (fun t => (t.x 1, t.pc)) =
    some (0x7FFFFFFB, 0x103) := by decide

/-- ARITH-20. -/
theorem test_div_by_zero : faultOf (step (start 0x43 1 2 [(1, 5)])) = some (.divisionByZero 0x100) := by decide

/-- MEM-2: misaligned, little-endian. -/
theorem test_load : (nextOf (step (start 0x50 1 2 [(2, 0x201)] 0
    [(0x200, 0x78), (0x201, 0x56), (0x202, 0x34), (0x203, 0x12), (0x204, 0xAB)]))).map (fun t => (t.x 1, t.pc)) =
    some (0xAB123456, 0x103) := by decide

/-- MEM-3, MEM-4 and MEM-5: the highest legal address, one past it, and no wrap. -/
theorem test_load_bounds :
    (nextOf (step (start 0x50 1 2 [(2, 0xFFFC)] 0 [(0xFFFC, 1), (0xFFFF, 0x80)]))).map (fun t => t.x 1) =
      some 0x80000001 ∧
    faultOf (step (start 0x50 1 2 [(1, 0xAAAA), (2, 0xFFFD)])) = some (.outOfBounds 0xFFFD 0x100) ∧
    faultOf (step (start 0x50 1 2 [(2, 0xFFFFFFFE)])) = some (.outOfBounds 0xFFFFFFFE 0x100) := by decide

/-- MEM-8. -/
theorem test_store : (nextOf (step (start 0x51 1 2 [(1, 0x12345678), (2, 0)]))).map
    (fun t => [t.mem.get 0, t.mem.get 1, t.mem.get 2, t.mem.get 3, t.mem.get 4]) =
    some [0x78, 0x56, 0x34, 0x12, 0] := by decide

/-- MEM-10 and MEM-9: the zero bytes are not listed, and one past the end nothing is written. -/
theorem test_store_same :
    (nextOf (step (start 0x51 2 2 [(2, 0x300)]))).map (fun t => t.mem) =
      some [(0x100, 0x51), (0x101, 2), (0x102, 2), (0x301, 3)] ∧
    faultOf (step (start 0x51 1 2 [(1, 1), (2, 0xFFFD)])) = some (.outOfBounds 0xFFFD 0x100) := by decide

/-- IO-1, with a device that has answered 5. -/
theorem test_input : (nextOf (step { start 0x60 0 0 [] with device := .queued [5, 6] })).map
    (fun t => (t.x 0, t.pc, t.device, t.trace)) = some (5, 0x103, .queued [6], [.received 5]) := by decide

/-- R120: no answer, no successor, no fault. -/
theorem test_input_waits :
    step { start 0x60 0 0 [] with device := .queued [] } = .refused .waitingForInput := rfl

/-- IO-5. -/
theorem test_output : (nextOf (step (start 0x61 1 0 [(1, 0xFFFFFFFF)] 0x01))).map
    (fun t => (t.outputs, t.lastOutput, t.flags, t.pc)) = some ([0xFFFFFFFF], some 0xFFFFFFFF, 0x01, 0x103) := by decide

/-- LOGIC-1. -/
theorem test_and : (nextOf (step (start 0x70 1 2 [(1, 0xF0F0F0F0), (2, 0xFF00FF00)]))).map (fun t => t.x 1) =
    some 0xF000F000 := by decide

/-- LOGIC-2. -/
theorem test_or : (nextOf (step (start 0x71 1 2 [(1, 0xF0F0F0F0), (2, 0xFF00FF00)]))).map (fun t => t.x 1) =
    some 0xFFF0FFF0 := by decide

/-- LOGIC-3. -/
theorem test_xor : (nextOf (step (start 0x72 1 2 [(1, 0xF0F0F0F0), (2, 0xFF00FF00)]))).map (fun t => t.x 1) =
    some 0x0FF00FF0 := by decide

/-- LOGIC-9: r2 is unused. -/
theorem test_not : (nextOf (step (start 0x73 7 3 [(7, 1), (3, 0x55)]))).map (fun t => (t.x 7, t.x 3)) =
    some (0xFFFFFFFE, 0x55) := by decide

/-- LOGIC-10 and LOGIC-15. -/
theorem test_shl :
    (nextOf (step (start 0x74 1 2 [(1, 1), (2, 0x1F)]))).map (fun t => t.x 1) = some 0x80000000 ∧
    (nextOf (step (start 0x74 1 1 [(1, 3)]))).map (fun t => t.x 1) = some 0x18 := by decide

/-- LOGIC-11 and LOGIC-12: the amount is not masked. -/
theorem test_shl_large :
    (nextOf (step (start 0x74 1 2 [(1, 1), (2, 0x20)]))).map (fun t => t.x 1) = some 0 ∧
    (nextOf (step (start 0x74 1 2 [(1, 0xFFFFFFFF), (2, 0xFFFFFFFF)]))).map (fun t => t.x 1) = some 0 := by decide

/-- LOGIC-18: logical. -/
theorem test_shr : (nextOf (step (start 0x75 1 2 [(1, 0xFFFFFFFF), (2, 4)]))).map (fun t => t.x 1) =
    some 0x0FFFFFFF := by decide

/-- LOGIC-19 and LOGIC-20. -/
theorem test_shr_large :
    (nextOf (step (start 0x75 1 2 [(1, 0x80000000), (2, 0x20)]))).map (fun t => t.x 1) = some 0 ∧
    (nextOf (step (start 0x75 1 2 [(1, 0x80000000), (2, 0xFFFFFFFF)]))).map (fun t => t.x 1) = some 0 := by decide

/-- CMP-4: every flag is recomputed, and no register is written. CMP-3: a step in signed mode. -/
theorem test_cmp :
    (nextOf (step (start 0x80 1 2 [(1, 0xB), (2, 0xA)] 0x07))).map (fun t => (t.flags, t.x 1, t.x 2, t.pc)) =
      some (0x00, 0xB, 0xA, 0x103) ∧
    (nextOf (stepUnder ⟨defaultOpcodeMap, .signed⟩ (start 0x80 1 2 [(1, 0xA), (2, 0xB)]))).map
      (fun t => (t.flags, t.x 1, t.x 2, t.pc)) = some (0x02, 0xA, 0xB, 0x103) := by decide

/-- The table of R151: operands, the default flags byte, and O in signed mode. -/
def compareRows : List (Word × Word × Byte × Bool) :=
  [(0x0000000A, 0x0000000A, 0x01, false), (0x0000000A, 0x0000000B, 0x06, false),
   (0x0000000B, 0x0000000A, 0x00, false), (0x80000000, 0x00000000, 0x02, false)] ++
  [(0x00000000, 0x80000001, 0x04, false), (0x7FFFFFFF, 0xFFFFFFFF, 0x06, true),
   (0x80000000, 0x00000001, 0x00, true), (0x00000000, 0x00000000, 0x01, false)] ++
  [(0xFFFFFFFF, 0x00000000, 0x02, false)]

/-- R151. -/
theorem test_cmp_table :
    compareRows.map (fun r => (compareFlags flagsLayout cmpOverflowMode r.1 r.2.1, subOverflow .signed r.1 r.2.1)) =
      compareRows.map (fun r => r.2.2) := rfl

/-- CTL-2: a target beyond memory is accepted. -/
theorem test_jmp : (nextOf (step (start 0x90 4 0 [(4, 0x10000)]))).map (fun t => (t.pc, t.x 4)) =
    some (0x10000, 0x10000) := by decide

/-- CTL-4 and CTL-6. -/
theorem test_je :
    (nextOf (step (start 0x91 4 0 [(4, 0x30)] 0x01))).map (fun t => t.pc) = some 0x30 ∧
    (nextOf (step (start 0x91 4 0 [(4, 0xFFFFFFFF)]))).map (fun t => t.pc) = some 0x103 := by decide

/-- CTL-7 and CTL-8. -/
theorem test_jne :
    (nextOf (step (start 0x92 4 0 [(4, 0x30)]))).map (fun t => t.pc) = some 0x30 ∧
    (nextOf (step (start 0x92 4 0 [(4, 0x30)] 0x01))).map (fun t => t.pc) = some 0x103 := by decide

/-- CTL-10, CTL-11 and CTL-12: O is not read. -/
theorem test_jg :
    (nextOf (step (start 0x93 4 0 [(4, 0x40)] 0x04))).map (fun t => t.pc) = some 0x40 ∧
    (nextOf (step (start 0x93 4 0 [(4, 0x40)] 0x02))).map (fun t => t.pc) = some 0x103 ∧
    (nextOf (step (start 0x93 4 0 [(4, 0x40)] 0x01))).map (fun t => t.pc) = some 0x103 := by decide

/-- CTL-13, CTL-15 and CTL-16. -/
theorem test_jl :
    (nextOf (step (start 0x94 4 0 [(4, 0x40)] 0x06))).map (fun t => t.pc) = some 0x40 ∧
    (nextOf (step (start 0x94 4 0 [(4, 0x40)] 0x04))).map (fun t => t.pc) = some 0x103 ∧
    (nextOf (step (start 0x94 4 0 [(4, 0x40)] 0x01))).map (fun t => t.pc) = some 0x103 := by decide

/-- HALT-1. -/
theorem test_halt : (nextOf (step (start 0xFF 0 0 [(1, 7)] 0x02))).map
    (fun t => (t.halted, t.pc, t.report.flags, t.report.regs[1])) = some (true, 0x103, 0x02, 7) := by decide

/-- CMP-8 in a run of an engine in signed mode whose map has CMP at 0x60 and HALT at 0x40 (R6). -/
theorem test_run_under_parameters :
    (Engine.run 2 ⟨⟨reversedMap, .signed⟩, .idle (start 0x60 1 2 [(1, 0x80000000), (2, 1)] 0 [(0x103, 0x40)])⟩).map
        (fun r => r.1) =
      let t := { start 0x60 1 2 [(1, 0x80000000), (2, 1)] 0x04 [(0x103, 0x40)] with pc := 0x106, halted := true }
      some (.halted t ⟨t.regs, 0x04⟩) := by decide

/-- R120, R234: an engine that waits in INPUT takes no second run and no reinitialising; it goes on with the
device's answer 5 (IO-1). -/
theorem test_waiting_engine :
    let e : Engine := ⟨defaultParams, .active { start 0x60 0 0 [] with device := .queued [] }⟩
    e.run 1 = none ∧ e.reinitialise .free = none ∧ (e.proceed 1).map (fun r => r.2) = some e ∧
    ((e.answer 5).proceed 1).map (fun r => match r.2.phase with
      | .active t => some (t.x 0, t.pc)
      | .idle _ | .faulted _ _ => none) = some (some (5, 0x103)) := by decide

/-- P4a and R206: the record of a fault. -/
theorem test_fault_record :
    (faultOf (step State.reset)).map (fun f => (f.kind.code, f.ia, f.detail)) = some (1, 0, .opcode 0x00) ∧
    (Fault.divisionByZero 6).kind.code = 2 ∧ (Fault.outOfBounds 5 6).kind.code = 3 ∧
    (Fault.illegalOperand 8 0 6).detail = .operandBytes 8 0 := by decide

/-- R46: an image is loaded at 0 and bytes beyond it stay. -/
theorem test_load_program :
    (loadProgram [0x61, 0x00, 0x07] { State.reset with mem := [(1, 9), (3, 8)] }).map (fun t => t.mem) =
      some [(0, 0x61), (2, 0x07), (3, 8)] := by decide

/-! ### Witnesses: for each statement with hypotheses, values that meet them together -/

/-- A running state with `ADD R1, R2` at 0x100. -/
def adding : State := start 0x40 1 2 [(1, 5), (2, 6)]

/-- A running state whose INPUT at 0x100 waits. -/
def waiting : State := { start 0x60 0 0 [] with device := .queued [] }

theorem witness_DecodeOfEncode : defaultOpcodeMap.WellFormed ∧ reversedMap.WellFormed := by decide

theorem witness_EncodeOfDecode :
    defaultOpcodeMap.WellFormed ∧ decodeUnder defaultOpcodeMap ⟨0x73, 7, 3⟩ = .ok (.not 7 3) :=
  ⟨by decide, rfl⟩

theorem witness_StepRunsDecodedInstruction :
    adding.halted = false ∧ readByte adding.mem adding.pc = some 0x40 ∧
    readByte adding.mem (adding.pc + 1#32) = some 1 ∧ readByte adding.mem (adding.pc + 2#32) = some 2 ∧
    decode ⟨0x40, 1, 2⟩ = .ok (.add 1 2) :=
  ⟨rfl, by decide, by decide, by decide, rfl⟩

/-- The first clause at its boundary, pc = 65533, and the second at 65534, 65536 and the top. -/
theorem witness_FetchReadsThreeBytesOrFaults :
    (readByte (startAt 0xFFFD 0xFF 1 2).mem 0xFFFD = some 0xFF ∧
      readByte (startAt 0xFFFD 0xFF 1 2).mem (0xFFFD + 1#32) = some 1 ∧
      readByte (startAt 0xFFFD 0xFF 1 2).mem (0xFFFD + 2#32) = some 2) ∧
    (∀ pc : Word, (startAt pc 0 0 0).halted = false ∧ (startAt pc 0 0 0).pc = pc) ∧
    65533 < (65534#32).toNat ∧ 65533 < (65536#32).toNat ∧ 65533 < (4294967295#32).toNat :=
  ⟨by decide, fun _ => ⟨rfl, rfl⟩, by decide, by decide, by decide⟩

theorem witness_UnknownOpcodeFaults :
    (start 0x44 1 2 []).halted = false ∧ readByte (start 0x44 1 2 []).mem 0x100 = some 0x44 ∧
    readByte (start 0x44 1 2 []).mem (0x100 + 1#32) = some 1 ∧
    readByte (start 0x44 1 2 []).mem (0x100 + 2#32) = some 2 ∧ defaultOpcodeMap.handler 0x44 = none := by decide

/-- The fault clause at 8 in either place, the handler clause at 7. -/
theorem witness_OperandsAreCheckedBeforeTheHandler :
    (start 0xFF 7 8 []).halted = false ∧ readByte (start 0xFF 7 8 []).mem 0x100 = some 0xFF ∧
    readByte (start 0xFF 7 8 []).mem (0x100 + 1#32) = some 7 ∧
    readByte (start 0xFF 7 8 []).mem (0x100 + 2#32) = some 8 ∧ defaultOpcodeMap.handler 0xFF = some .HALT ∧
    8 ≤ (8 : Byte).toNat ∧ (7 : Byte).toNat = (7 : Reg).val := by decide

theorem witness_FaultLeavesOnlyThePcAdvance :
    stepUnder defaultParams (start 0x43 1 2 []) = .fault (.divisionByZero 0x100) := rfl

theorem witness_OnlyDivLoadStoreHandlersFault :
    (start 0x43 1 2 []).pc = 0xFD + 3#32 ∧
    exec (.div 1 2) (start 0x43 1 2 []) = .fault (.divisionByZero 0xFD) ∧
    exec (.load 1 2) (start 0x50 1 2 [(2, 65533)]) = .fault (.outOfBounds 65533 0xFD) ∧
    exec (.store 1 2) (start 0x51 1 2 [(2, 65533)]) = .fault (.outOfBounds 65533 0xFD) :=
  ⟨rfl, rfl, rfl, rfl⟩

theorem witness_OnlyInputWaits : stepUnder defaultParams waiting = .refused .waitingForInput := rfl

theorem witness_ResetLeavesTheStatedValues :
    construct (.queued [1]) = construct (.queued [1]) ∧ (construct (.queued [1])).device = .queued [1] ∧
    State.reset = construct .free := ⟨rfl, rfl, rfl⟩

/-- A state that is not the reset state, with memory listed, and a step from it. -/
theorem witness_StepKeepsInvariant :
    adding.Inv ∧ (∃ t, step adding = .next t ∧ t.x 1 = 11) ∧ ∃ t, stepUnder ⟨reversedMap, .signed⟩ adding = .next t :=
  ⟨by unfold State.Inv; decide, ⟨_, rfl, by decide⟩, _, rfl⟩

theorem witness_RunsKeepInvariantHaltedAndTrace :
    adding.Inv ∧ ∃ t, Host.Core.run Sys2Proof.core 1 adding = .next t := ⟨by unfold State.Inv; decide, _, rfl⟩

theorem witness_OnlyHaltSetsHalted :
    (∃ t, exec (.halt 0 0) State.reset = .next t ∧ t.halted = true) ∧
    (∃ t, exec (.add 0 0) State.reset = .next t ∧ t.halted = false) ∧
    (∃ t, stepUnder defaultParams { State.reset with halted := true } = .next t) ∧
    (∃ n, Engine.reinitialise .free ⟨defaultParams, .idle { State.reset with halted := true }⟩ = some n) :=
  ⟨⟨_, rfl, rfl⟩, ⟨_, rfl, rfl⟩, ⟨_, rfl⟩, ⟨_, rfl⟩⟩

theorem witness_OnlyCompareWritesFlags :
    (∃ t, exec (.cmp 1 2) adding = .next t ∧ t.flags = 0x06) ∧
    (∃ t, exec (.sub 1 2) { adding with flags := 0xFF } = .next t ∧ t.flags = 0xFF) :=
  ⟨⟨_, rfl, by decide⟩, ⟨_, rfl, rfl⟩⟩

theorem witness_PcAdvancesByThreeOrJumps :
    adding.halted = false ∧ decodeUnder defaultOpcodeMap ⟨0x40, 1, 2⟩ = .ok (.add 1 2) ∧
    (∃ t, stepUnder defaultParams adding = .next t ∧ t.pc = 0x103) ∧
    (∃ t, stepUnder defaultParams (start 0x90 4 0 [(4, 9)]) = .next t ∧ t.pc = 9) :=
  ⟨rfl, rfl, ⟨_, rfl, by decide⟩, ⟨_, rfl, by decide⟩⟩

theorem witness_OnlyStoreWritesMemory :
    (∃ t, exec (.store 1 2) adding = .next t ∧ readByte t.mem 6 = some 5) ∧
    (∃ t, exec (.add 1 2) adding = .next t) := ⟨⟨_, rfl, by decide⟩, ⟨_, rfl⟩⟩

theorem witness_RegistersWrittenAreTheDestinations :
    (∃ t, exec (.add 1 2) adding = .next t) ∧ destination (.add 1 2) ≠ some 2 := ⟨⟨_, rfl⟩, by decide⟩

theorem witness_IoEventsAreRecordedInOrder :
    (∃ t, exec (.input 1 0) State.reset = .next t) ∧ (∃ t, exec (.output 1 0) State.reset = .next t) ∧
    (∃ t, exec (.not 1 0) State.reset = .next t) := ⟨⟨_, rfl⟩, ⟨_, rfl⟩, ⟨_, rfl⟩⟩

theorem witness_DivWritesTheQuotientOrFaults :
    adding.x 2 ≠ 0 ∧ adding.x 3 = 0 ∧ adding.pc = 0xFD + 3#32 := by decide

/-- The last byte of memory and the first address beyond it. -/
theorem witness_ByteWriteChangesExactlyOneByte :
    (65535#32).toNat < 65536 ∧ 65536 ≤ (65536#32).toNat := by decide

theorem witness_WordRoundTrip : (65532#32).toNat ≤ 65532 := by decide

/-- LoadWritesTheWordOrFaults and StoreWritesTheWordOrFaults: the highest legal word address, one past it,
and one whose last byte would wrap. -/
theorem witness_LoadAndStoreBounds :
    (start 0x50 1 2 [(2, 65532)]).x 2 = 65532 ∧ (65532#32).toNat ≤ 65532 ∧ 65532 < (65533#32).toNat ∧
    65532 < (0xFFFFFFFE#32).toNat ∧ (start 0x50 1 2 [(2, 65532)]).pc = 0xFD + 3#32 := by decide

/-- `STORE R0, R1` at 0x100 with x[1] = 0x103: the next instruction's bytes. -/
theorem witness_StoreIsSeenByTheNextFetch :
    (start 0x51 0 1 [(0, 0xFF), (1, 0x103)]).halted = false ∧
    readByte (start 0x51 0 1 [(0, 0xFF), (1, 0x103)]).mem 0x100 = some 0x51 ∧
    readByte (start 0x51 0 1 [(0, 0xFF), (1, 0x103)]).mem (0x100 + 1#32) = some 0 ∧
    readByte (start 0x51 0 1 [(0, 0xFF), (1, 0x103)]).mem (0x100 + 2#32) = some 1 ∧
    decodeUnder defaultOpcodeMap ⟨0x51, 0, 1⟩ = .ok (.store 0 1) ∧
    (start 0x51 0 1 [(0, 0xFF), (1, 0x103)]).x 1 = 0x100 + 3#32 ∧
    ((start 0x51 0 1 [(0, 0xFF), (1, 0x103)]).x 1).toNat ≤ 65532 :=
  ⟨rfl, by decide, by decide, by decide, rfl, by decide, by decide⟩

/-- InputWritesTheDevicesAnswer: both kinds of device that answer. InputWaitsUntilAnswered: one that has
not. -/
theorem witness_InputDevices :
    State.reset.device ≠ .queued [] ∧ State.reset.device = .free ∧
    (construct (.queued [5])).device ≠ .queued [] ∧ (construct (.queued [5])).device = .queued (5 :: []) ∧
    waiting.device = .queued [] := by decide

/-- OverflowModeBearsOnCompareAlone: an instruction that is no CMP, and a CMP whose O bit the mode decides. -/
theorem witness_OverflowModeBearsOnCompareAlone :
    (∀ r1 r2, Instr.add 1 2 ≠ .cmp r1 r2) ∧
    (nextOf (exec (.cmp 1 2) (start 0x80 1 2 [(1, 0x80000000), (2, 1)]))).map (fun t => t.flags) = some 0x00 :=
  ⟨by simp, by decide⟩

theorem witness_CompareSetsTheFlags :
    adding.x 1 = 5 ∧ adding.x 2 = 6 ∧
    ((0xFFFFFFFF#32).toNat : Int) = ((5#32).toNat - (6#32).toNat : Int) % 2 ^ 32 := by decide

/-- Each clause of the jumps after CMP: equal, greater at both ends, less at both ends. -/
theorem witness_AfterCompareExactlyOneJumpIsTaken :
    (∃ t, exec (.cmp 1 2) adding = .next t) ∧ (0x103 : Word) ≠ adding.x 3 ∧
    (∀ p ∈ [(7, 7, 0), (8, 7, 1), (0x7FFFFFFF, 0, 0x7FFFFFFF), (0x80000000, 0, 0x80000000), (0, 1, 0xFFFFFFFF)],
      ((p.2.2 : Nat) : Int) = ((BitVec.ofNat 32 p.1).toNat - (BitVec.ofNat 32 p.2.1).toNat : Int) % 2 ^ 32) :=
  ⟨⟨_, rfl⟩, by decide, by decide⟩

theorem witness_JumpBeyondMemoryFaultsAtTheNextFetch :
    (start 0x90 4 0 [(4, 65536)]).halted = false ∧ 65536 ≤ ((start 0x90 4 0 [(4, 65536)]).x 4).toNat := by decide

theorem witness_RunOnHaltedEngineIsNoOp : ({ State.reset with halted := true } : State).halted = true := rfl

/-- An engine just constructed, whose empty memory faults, and one that a run brought there; and of a faulted
one, an answer of each operation that has one. -/
theorem witness_FaultEndsTheRun :
    (Engine.construct defaultParams .free).phase = .idle State.reset ∧
    (⟨defaultParams, .active State.reset⟩ : Engine).phase = .active State.reset ∧
    State.reset.halted = false ∧ stepUnder defaultParams State.reset = .fault (.unknownOpcode 0x00 0) ∧
    (let e : Engine := ⟨defaultParams, .faulted (.unknownOpcode 0x00 0) State.reset⟩
     (∃ n, e.loadProgram [0x61] = some n) ∧ (∃ n, e.setRegisters State.reset.regs 9 true false false = some n) ∧
     (∃ n, e.writeMemory 65535 1 = some n)) :=
  ⟨rfl, rfl, rfl, rfl, ⟨_, rfl⟩, ⟨_, rfl⟩, ⟨_, rfl⟩⟩

theorem witness_OnlyReinitialisingLeavesHalted :
    let s : State := { State.reset with halted := true }
    let e : Engine := ⟨defaultParams, .idle s⟩
    e.phase = .idle s ∧ s.halted = true ∧ (∃ n, e.loadProgram [0x61] = some n) ∧
    (∃ n, e.setRegisters s.regs 9 true false false = some n) ∧ (∃ n, e.writeMemory 65535 1 = some n) :=
  ⟨rfl, rfl, ⟨_, rfl⟩, ⟨_, rfl⟩, ⟨_, rfl⟩⟩

theorem witness_EndedRunsStayEnded :
    (∃ t r, runUnder defaultParams 1 (start 0xFF 0 0 []) = .halted t r) ∧
    (∃ f t, runUnder defaultParams 1 State.reset = .faulted f t) := ⟨⟨_, _, rfl⟩, ⟨_, _, rfl⟩⟩

/-- An engine in each phase; the last address of memory and the first beyond it. -/
theorem witness_NoOperationDuringARun :
    (∃ s, (⟨defaultParams, .active adding⟩ : Engine).phase = .active s) ∧
    (∃ s, (Engine.construct defaultParams .free).phase = .idle s) ∧
    (∃ f s, (⟨defaultParams, .faulted (.divisionByZero 0) adding⟩ : Engine).phase = .faulted f s) ∧
    65536 < (List.replicate 65537 (1 : Byte)).length ∧
    [(0x61 : Byte)].length ≤ 65536 ∧ (65535#32).toNat < 65536 ∧ 65536 ≤ (65536#32).toNat :=
  ⟨⟨_, rfl⟩, ⟨_, rfl⟩, ⟨_, _, rfl⟩, by rw [List.length_replicate]; decide, by decide, by decide, by decide⟩

/-- A run of one step that is still running, and one that waits. -/
theorem witness_RunGoesOnUntilItEnds :
    (⟨defaultParams, .idle adding⟩ : Engine).phase = .idle adding ∧
    (∃ t, runUnder defaultParams 1 adding = .running t ∧ t.x 1 = 11) ∧
    runUnder defaultParams 1 waiting = .waiting .waitingForInput waiting := ⟨rfl, ⟨_, rfl, by decide⟩, rfl⟩

/-- An image that fits, the largest that fits, and the smallest that does not. -/
theorem witness_LoadProgramWritesTheImage :
    [(0x61 : Byte), 0x00, 0x07].length ≤ 65536 ∧ (List.replicate 65536 (1 : Byte)).length ≤ 65536 ∧
    65536 < (List.replicate 65537 (1 : Byte)).length := by
  simp only [List.length_replicate]
  decide

end Sys2Proof.Tests
end

/-! The family 00_scope.md: what a fault leaves (O10), what the overflow mode bears on (O42), and what the
owner of an engine can do and when (O54). -/

namespace Sys2Proof.Machine

/-! ### What a fault leaves -/

/-- The inversion of `exec` where it answers a fault (the handlers' columns of R205). -/
theorem exec_fault_cases {i : Instr} {s : State} {f : Fault} (h : exec i s = .fault f) :
    (∃ r1 r2, i = .div r1 r2 ∧ s.x r2 = 0 ∧ f = .divisionByZero (handlerIa s)) ∨
    (∃ r1 r2, (i = .load r1 r2 ∨ i = .store r1 r2) ∧ Config.memSize ≤ (s.x r2).toNat + 3 ∧
      f = .outOfBounds (s.x r2) (handlerIa s)) := by
  cases i with
  | div r1 r2 =>
    simp only [exec, execDiv] at h
    split at h
    · next h0 =>
      cases h
      exact .inl ⟨r1, r2, rfl, h0, rfl⟩
    · cases h
  | load r1 r2 =>
    by_cases hb : (s.x r2).toNat + 3 < Config.memSize
    · simp [exec, execLoad, effectiveAddress, readWord_of_lt hb] at h
    · have hb := Nat.le_of_not_lt hb
      simp only [exec, execLoad, effectiveAddress, readWord_of_ge hb] at h
      cases h
      exact .inr ⟨r1, r2, .inl rfl, hb, rfl⟩
  | store r1 r2 =>
    by_cases hb : (s.x r2).toNat + 3 < Config.memSize
    · obtain ⟨m, hm, -⟩ := writeWord_spec (m := s.mem) (v := s.x r1) hb
      simp [exec, execStore, effectiveAddress, hm] at h
    · have hb := Nat.le_of_not_lt hb
      simp only [exec, execStore, effectiveAddress, writeWord_of_ge hb] at h
      cases h
      exact .inr ⟨r1, r2, .inr rfl, hb, rfl⟩
  | input r1 r2 =>
    simp only [exec, execInput] at h
    split at h <;> cases h
  | _ => cases h

/-- A handler's fault names the address of the running instruction (R206). -/
theorem exec_fault_ia {i : Instr} {s : State} {f : Fault} (h : exec i s = .fault f) : f.ia = handlerIa s := by
  rcases exec_fault_cases h with ⟨_, _, -, -, rfl⟩ | ⟨_, _, -, -, rfl⟩ <;> rfl

@[simp] theorem decodeFault_ia (ia : Word) (e : DecodeError) : (decodeFault ia e).ia = ia := by
  cases e <;> rfl

/-- A handler runs with pc = ia + 3 (R22), so its instruction address is the pc the fetch began at. -/
@[simp] theorem handlerIa_setPc_add_three (s : State) (ia : Word) : handlerIa (s.setPc (ia + 3#32)) = ia :=
  BitVec.add_sub_cancel ia 3#32

/-- The inversion of a step that answers a fault: the fetch failed, the word is no instruction, or the
handler raised it. -/
theorem stepUnder_fault_cases {p : Params} {s : State} {f : Fault} (h : stepUnder p s = .fault f) :
    s.halted = false ∧
    ((Config.memSize ≤ s.pc.toNat + 2 ∧ f = .outOfBounds s.fetchLimit s.pc) ∨
     (s.pc.toNat + 2 < Config.memSize ∧
       ((∃ e, decodeUnder p.opcodeMap s.wordAtPc = .error e ∧ f = decodeFault s.pc e) ∨
        ∃ i, decodeUnder p.opcodeMap s.wordAtPc = .ok i ∧ exec i (s.setPc (s.pc + 3#32)) = .fault f))) := by
  cases hh : s.halted with
  | true =>
    rw [stepUnder_of_halted hh] at h
    cases h
  | false =>
    refine ⟨rfl, ?_⟩
    by_cases hb : s.pc.toNat + 2 < Config.memSize
    · rw [stepUnder_of_lt hh hb] at h
      refine .inr ⟨hb, ?_⟩
      cases hd : decodeUnder p.opcodeMap s.wordAtPc with
      | error e =>
        simp only [hd] at h
        cases h
        exact .inl ⟨e, rfl, rfl⟩
      | ok i =>
        simp only [hd] at h
        exact .inr ⟨i, rfl, execUnder_fault_iff.mp h⟩
    · have hb := Nat.le_of_not_lt hb
      rw [stepUnder_of_ge hh hb] at h
      cases h
      exact .inl ⟨hb, rfl⟩

/-- Whichever stage raises it, a fault names the instruction address (R206). -/
theorem stepUnder_fault_ia {p : Params} {s : State} {f : Fault} (h : stepUnder p s = .fault f) : f.ia = s.pc := by
  obtain ⟨-, ⟨-, rfl⟩ | ⟨-, ⟨e, -, rfl⟩ | ⟨i, -, hf⟩⟩⟩ := stepUnder_fault_cases h
  · rfl
  · exact decodeFault_ia s.pc e
  · rw [exec_fault_ia hf, handlerIa_setPc_add_three]

/-- Of the whole step only the fetch's pc advance remains after a fault (R12, R70, R208). -/
theorem stateLeftByFault_eq_setPc (s : State) : ∃ v : Word, stateLeftByFault s = s.setPc v ∧
    v.toNat = if 65536 ≤ s.pc.toNat then s.pc.toNat else min (s.pc.toNat + 3) 65536 := by
  have hM : Config.memSize = 65536 := rfl
  by_cases hb : s.pc.toNat + 2 < Config.memSize
  · refine ⟨s.pc + 3#32, by rw [stateLeftByFault, fetch_of_lt hb], ?_⟩
    rw [add_toNat_of_lt (k := 3) (by omega), if_neg (by omega)]
    omega
  · refine ⟨s.fetchLimit, by rw [stateLeftByFault, fetch_of_ge (Nat.le_of_not_lt hb)], ?_⟩
    by_cases h0 : s.pc.toNat < Config.memSize
    · rw [State.fetchLimit, if_pos h0, if_neg (by omega), BitVec.toNat_ofNat]
      omega
    · rw [State.fetchLimit, if_neg h0, if_pos (by omega)]

/-- Settles O10: the record by the inversion of a faulting step, the state left by the fetch's two cases. -/
theorem faultLeavesOnlyThePcAdvance : Obligations.FaultLeavesOnlyThePcAdvance := by
  intro p s f h
  obtain ⟨v, hs, hv⟩ := stateLeftByFault_eq_setPc s
  rw [hs]
  exact ⟨stepUnder_fault_ia h, hv, fun _ => rfl, rfl, rfl, fun _ => rfl, rfl, rfl⟩

/-! ### What the overflow mode bears on -/

/-- The mode decides no flag bit but O's, bit 2 (R24, R150). -/
theorem compareFlags_getLsbD_mode (mode mode' : OverflowMode) (a b : Word) {k : Nat} (hk : k ≠ 2) :
    (compareFlags flagsLayout mode a b).getLsbD k = (compareFlags flagsLayout mode' a b).getLsbD k := by
  simp only [compareFlags, packFlags_getLsbD, if_neg hk]

/-- Settles O42: by the laws of `execUnder`, and for CMP by the bits of the flags byte it writes. -/
theorem overflowModeBearsOnCompareAlone : Obligations.OverflowModeBearsOnCompareAlone := by
  intro i s
  refine ⟨execUnder_default i s, fun hi mode => execUnder_of_ne_cmp hi, ?_⟩
  rintro r1 r2 rfl
  exact ⟨_, _, rfl, rfl, fun k hk => compareFlags_getLsbD_mode _ _ _ _ hk, rfl⟩

/-! ### What the owner can do and when -/

/-- A byte's write inside memory: that byte holds the value, and no other reads differently (R42). -/
theorem writeByte_spec {m : Memory} {a : Word} {v : Byte} (h : a.toNat < Config.memSize) :
    ∃ n, writeByte m a v = some n ∧ readByte n a = some v ∧ ∀ b : Word, b ≠ a → readByte n b = readByte m b := by
  refine ⟨m.set a.toNat v, writeByte_eq_some.mpr ⟨h, rfl⟩,
    readByte_eq_some.mpr ⟨h, Memory.get_set_same m a.toNat v⟩, fun b hb => ?_⟩
  have hne : b.toNat ≠ a.toNat := fun he => hb (BitVec.eq_of_toNat_eq he)
  rw [readByte, readByte, Memory.get_set_other m a.toNat v b.toNat hne]

theorem writeByte_of_ge {m : Memory} {a : Word} {v : Byte} (h : Config.memSize ≤ a.toNat) : writeByte m a v = none :=
  if_pos h

theorem loadProgram_of_le {image : List Byte} (h : image.length ≤ Config.memSize) (s : State) :
    loadProgram image s = some (s.setMem (writeBytes s.mem 0 image)) :=
  if_neg (Nat.not_lt.mpr h)

theorem loadProgram_of_gt {image : List Byte} (h : Config.memSize < image.length) (s : State) :
    loadProgram image s = none :=
  if_pos h

/-- No operation of the owner is available during a run (R5, R46, R234). -/
theorem Engine.no_operation_of_active {e : Engine} {s : State} (h : e.phase = .active s) (k : Nat)
    (image : List Byte) (regs : Vector Word 8) (pc a : Word) (z n o : Bool) (v : Byte) (d : Device) :
    e.run k = none ∧ e.loadProgram image = none ∧ e.setRegisters regs pc z n o = none ∧
      e.writeMemory a v = none ∧ e.inspect = none ∧ e.reinitialise d = none :=
  ⟨by simp only [Engine.run, h], Engine.betweenRuns_of_active h _, Engine.betweenRuns_of_active h _,
    Engine.betweenRuns_of_active h _, by simp only [Engine.inspect, h], by simp only [Engine.reinitialise, h]⟩

section NoRun

variable {e : Engine} {s : State} {phaseAt : State → Phase}
  (hp : phaseAt = .idle ∨ ∃ f, phaseAt = .faulted f) (h : e.phase = phaseAt s)

include hp h

theorem Engine.inspect_of_no_run : e.inspect = some s := by
  rcases hp with rfl | ⟨f, rfl⟩ <;> simp only [Engine.inspect, h]

theorem Engine.reinitialise_of_no_run (d : Device) : e.reinitialise d = some (Engine.construct e.params d) := by
  rcases hp with rfl | ⟨f, rfl⟩ <;> simp only [Engine.reinitialise, h]

/-- A load of an engine without a run is the load of its state (R46). -/
theorem Engine.loadProgram_of_no_run (image : List Byte) :
    e.loadProgram image = (Machine.loadProgram image s).map fun t => ⟨e.params, phaseAt t⟩ :=
  Engine.betweenRuns_of_no_run hp h _

theorem Engine.setRegisters_of_no_run (regs : Vector Word 8) (pc : Word) (z n o : Bool) :
    e.setRegisters regs pc z n o =
      some ⟨e.params, phaseAt { s with regs := regs, pc := pc, flags := packFlags flagsLayout z n o }⟩ :=
  Engine.betweenRuns_of_no_run hp h _

/-- A harness's byte goes to the memory of the engine's state under the primitive's check (R33, R42). -/
theorem Engine.writeMemory_of_no_run (a : Word) (v : Byte) :
    e.writeMemory a v = (writeByte s.mem a v).map fun m => ⟨e.params, phaseAt (s.setMem m)⟩ := by
  rw [Engine.writeMemory, Engine.betweenRuns_of_no_run hp h, Option.map_map]
  rfl

end NoRun

/-- Settles O54: each operation by its law in either kind of phase, with a run and without. -/
theorem noOperationDuringARun : Obligations.NoOperationDuringARun := by
  intro e k image regs pc a z n o v d
  refine ⟨?_, ?_, ?_, fun phaseAt s hp h => ?_⟩
  · rintro ⟨s, h⟩
    exact Engine.no_operation_of_active h k image regs pc a z n o v d
  · rintro ⟨s, h⟩
    simp only [Engine.run, h, Option.isSome_some]
  · rintro ⟨f, s, h⟩
    simp only [Engine.run, h]
  · have load := Engine.loadProgram_of_no_run hp h image
    have write := Engine.writeMemory_of_no_run hp h a v
    refine ⟨Engine.inspect_of_no_run hp h, fun hl => ?_, fun hl => ?_,
      Engine.setRegisters_of_no_run hp h regs pc z n o, fun ha => ?_, fun ha => ?_,
      Engine.reinitialise_of_no_run hp h d⟩
    · have hs := loadProgram_of_le hl s
      exact ⟨_, hs, by rw [load, hs, Option.map_some]⟩
    · rw [load, loadProgram_of_gt hl, Option.map_none]
    · obtain ⟨m, hm, hsame, hother⟩ := writeByte_spec (m := s.mem) (v := v) ha
      exact ⟨s.setMem m, by rw [write, hm, Option.map_some], hsame, hother, rfl⟩
    · rw [write, writeByte_of_ge ha, Option.map_none]

end Sys2Proof.Machine

/-! The family 10_state.md: what each handler may change of the state (O17, O18, O20, O21), CMP's flags (O39), a
step as the execution of its decoded instruction (O6, O19, O48), and the invariant at reset (O14), over a step
(O15) and over runs (O16). -/

namespace Sys2Proof.Machine

/-! ### What a handler leaves unchanged -/

/-- The frame every handler meets when it takes `s` to `t`: each field of the state changes by the instructions
that the spec lets write it, and by no other (R21, R23, R25, R26, R122). -/
structure HandlerFrame (i : Instr) (s t : State) : Prop where
  flags_eq : (∀ r1 r2, i ≠ .cmp r1 r2) → t.flags = s.flags
  mem_eq : (∀ r1 r2, i ≠ .store r1 r2) → t.mem = s.mem
  halted_eq : (∀ r1 r2, i ≠ .halt r1 r2) → t.halted = s.halted
  x_eq : ∀ q : Reg, destination i ≠ some q → t.x q = s.x q
  pc_cases : t.pc = s.pc ∨ ∃ r, jumpRegister i = some r ∧ t.pc = s.x r
  trace_prefix : s.trace <+: t.trace

/-- Each kind of effect meets the frame. -/
theorem EffectOf.frame {mode : OverflowMode} {i : Instr} {s t : State} (h : EffectOf mode i s t) :
    HandlerFrame i s t := by
  have keep : List.IsPrefix s.trace s.trace := List.prefix_rfl
  have grow (e : IoEvent) : s.trace <+: s.trace ++ [e] := List.prefix_append _ _
  have other {u : State} {r : Reg} {v : Word} (hd : destination i = some r) (q : Reg)
      (hq : destination i ≠ some q) : (u.setX r v).x q = u.x q :=
    State.setX_x_other u r v q fun he => hq (he ▸ hd)
  rcases h with ⟨r, v, hd, -, -, rfl⟩ | ⟨r1, r2, v, u, rfl, hu, rfl⟩ | ⟨r1, r2, m, rfl, -, rfl⟩ |
    ⟨r1, r2, -, rfl⟩ | ⟨r1, r2, rfl, rfl⟩ | ⟨r, hj, -, rfl | rfl⟩ | ⟨r1, r2, rfl, rfl⟩
  · exact ⟨fun _ => rfl, fun _ => rfl, fun _ => rfl, other hd, .inl rfl, keep⟩
  · obtain ⟨d, rfl, -⟩ := ioInput_cases hu
    exact ⟨fun _ => rfl, fun _ => rfl, fun _ => rfl, other rfl, .inl rfl, grow _⟩
  · exact ⟨fun _ => rfl, fun hi => absurd rfl (hi r1 r2), fun _ => rfl, fun _ _ => rfl, .inl rfl, keep⟩
  · exact ⟨fun _ => rfl, fun _ => rfl, fun _ => rfl, fun _ _ => rfl, .inl rfl, grow _⟩
  · exact ⟨fun hi => absurd rfl (hi r1 r2), fun _ => rfl, fun _ => rfl, fun _ _ => rfl, .inl rfl, keep⟩
  · exact ⟨fun _ => rfl, fun _ => rfl, fun _ => rfl, fun _ _ => rfl, .inl rfl, keep⟩
  · exact ⟨fun _ => rfl, fun _ => rfl, fun _ => rfl, fun _ _ => rfl, .inr ⟨r, hj, rfl⟩, keep⟩
  · exact ⟨fun _ => rfl, fun _ => rfl, fun hi => absurd rfl (hi r1 r2), fun _ _ => rfl, .inl rfl, keep⟩

/-- A word write that answers changes no byte but its four, and keeps the canonical form (R44). -/
theorem frame_of_writeWord {m n : Memory} {a v : Word} (h : writeWord m a v = some n) :
    (∀ b, b < a.toNat ∨ a.toNat + 3 < b → n.get b = m.get b) ∧ (m.wf → n.wf) := by
  obtain ⟨n', hn, -, hout, hwf⟩ := writeWord_spec (m := m) (v := v) (lt_of_writeWord h)
  obtain rfl : n' = n := Option.some.inj (hn.symm.trans h)
  exact ⟨hout, hwf⟩

/-- The inversion of a STORE that completes: the word is written, and memory alone is replaced (R111). -/
theorem exec_store_next {r1 r2 : Reg} {s t : State} (h : exec (.store r1 r2) s = .next t) :
    ∃ m, writeWord s.mem (effectiveAddress r2 s) (s.x r1) = some m ∧ t = s.setMem m := by
  simp only [exec, execStore] at h
  split at h
  · next m hm =>
    cases h
    exact ⟨m, hm, rfl⟩
  · cases h

/-- The flags byte of CMP holds the three flags of the wrapped difference and zeros above (R24, R150). -/
theorem flagsOnly_compareFlags (mode : OverflowMode) (a b : Word) (s : State) :
    FlagsOnly (decide (a - b = 0)) ((a - b).getLsbD 31) (subOverflow mode a b) s
      (s.setFlags (compareFlags flagsLayout mode a b)) := by
  have bit (k : Nat) := packFlags_getLsbD (a - b == 0) (a - b).msb (subOverflow mode a b) k
  refine ⟨bit 0, (bit 1).trans (a - b).msb_eq_getLsbD_last, bit 2, fun k hk => (bit k).trans ?_,
    fun _ => rfl, rfl, rfl, fun _ => rfl, rfl, rfl⟩
  rw [if_neg (by omega), if_neg (by omega), if_neg (by omega)]

/-- The word whose value is the integer difference modulo 2^32 is the wrapped difference (R8). -/
theorem eq_sub_of_toNat_emod {a b diff : Word} (h : (diff.toNat : Int) = (a.toNat - b.toNat : Int) % 2 ^ 32) :
    diff = a - b := by
  have hb := b.isLt
  apply BitVec.eq_of_toNat_eq
  rw [BitVec.toNat_sub]
  omega

/-- Settles O18: the frame of the flags, and CMP's flags byte in the default mode. -/
theorem onlyCompareWritesFlags : Obligations.OnlyCompareWritesFlags := by
  intro i s t h
  refine ⟨(exec_next_cases h).frame.flags_eq, ?_⟩
  rintro r1 r2 rfl
  cases h
  simp only [← sub_eq_zero (a := s.x r1)]
  exact flagsOnly_compareFlags cmpOverflowMode (s.x r1) (s.x r2) s

/-- Settles O39: CMP's flags byte in both modes, the wrapped difference known by its integer value. -/
theorem compareSetsTheFlags : Obligations.CompareSetsTheFlags := by
  rintro r1 r2 s a b diff rfl rfl hdiff
  obtain rfl := eq_sub_of_toNat_emod hdiff
  have hz : (s.x r1 - s.x r2).toNat = 0 ↔ s.x r1 - s.x r2 = 0 :=
    (BitVec.toNat_eq (y := 0#32)).symm
  have hsigned : subOverflow .signed (s.x r1) (s.x r2) =
      ((s.x r1).getLsbD 31 != (s.x r2).getLsbD 31 && (s.x r1 - s.x r2).getLsbD 31 != (s.x r1).getLsbD 31) := by
    simp only [subOverflow, BitVec.msb_eq_getLsbD_last]
  simp only [hz, ← hsigned]
  exact ⟨⟨_, rfl, flagsOnly_compareFlags cmpOverflowMode _ _ s⟩, _, rfl, flagsOnly_compareFlags .signed _ _ s⟩

/-- Settles O20: the frame of the memory, and for STORE that of the word write. -/
theorem onlyStoreWritesMemory : Obligations.OnlyStoreWritesMemory := by
  intro i s t h
  refine ⟨fun hi a => by rw [(exec_next_cases h).frame.mem_eq hi], ?_⟩
  rintro r1 r2 rfl a ha
  obtain ⟨m, hm, rfl⟩ := exec_store_next h
  rw [readByte, readByte, State.setMem_mem, (frame_of_writeWord hm).1 a.toNat ha]

/-- Settles O21: the frame of the registers. -/
theorem registersWrittenAreTheDestinations : Obligations.RegistersWrittenAreTheDestinations :=
  fun _ _ _ h => (exec_next_cases h).frame.x_eq

/-! ### A step as the execution of the decoded instruction -/

/-- Three bytes that can be read at pc lie in memory and are the word fetched (R70). -/
theorem wordAtPc_of_readByte {s : State} {op b1 b2 : Byte} (h0 : readByte s.mem s.pc = some op)
    (h1 : readByte s.mem (s.pc + 1#32) = some b1) (h2 : readByte s.mem (s.pc + 2#32) = some b2) :
    s.pc.toNat + 2 < Config.memSize ∧ s.wordAtPc = ⟨op, b1, b2⟩ := by
  obtain ⟨hpc, rfl⟩ := readByte_eq_some.mp h0
  obtain ⟨-, rfl⟩ := readByte_eq_some.mp h1
  obtain ⟨hlt, rfl⟩ := readByte_eq_some.mp h2
  have hM : Config.memSize = 65536 := rfl
  have e1 : (s.pc + 1#32).toNat = s.pc.toNat + 1 := add_toNat_of_lt (k := 1) (by omega)
  have e2 : (s.pc + 2#32).toNat = s.pc.toNat + 2 := add_toNat_of_lt (k := 2) (by omega)
  exact ⟨e2 ▸ hlt, by rw [State.wordAtPc, e1, e2]⟩

/-- A running engine executes what the three bytes at pc decode to, with pc advanced by 3 (R70 to R73). -/
theorem stepUnder_of_readByte {p : Params} {s : State} {op b1 b2 : Byte} {i : Instr} (hh : s.halted = false)
    (h0 : readByte s.mem s.pc = some op) (h1 : readByte s.mem (s.pc + 1#32) = some b1)
    (h2 : readByte s.mem (s.pc + 2#32) = some b2) (hd : decodeUnder p.opcodeMap ⟨op, b1, b2⟩ = .ok i) :
    stepUnder p s = execUnder p.overflowMode i (s.setPc (s.pc + 3#32)) := by
  obtain ⟨hlt, hw⟩ := wordAtPc_of_readByte h0 h1 h2
  rw [stepUnder_of_lt hh hlt, hw, hd]

/-- A running engine whose pc is beyond memory faults at pc itself (R70). -/
theorem stepUnder_of_pc_ge {p : Params} {s : State} (hh : s.halted = false) (h : Config.memSize ≤ s.pc.toNat) :
    stepUnder p s = .fault (.outOfBounds s.pc s.pc) := by
  rw [stepUnder_of_ge hh (by omega), State.fetchLimit, if_neg (by omega)]

/-- Settles O6: a step in the default mode executes by `exec`. -/
theorem stepRunsDecodedInstruction : Obligations.StepRunsDecodedInstruction := by
  intro s op b1 b2 i hh h0 h1 h2 hd
  exact (stepUnder_of_readByte (p := defaultParams) hh h0 h1 h2 hd).trans (execUnder_default i _)

/-- Settles O19: the handler leaves the step's advanced pc, or loads a jump's register. -/
theorem pcAdvancesByThreeOrJumps : Obligations.PcAdvancesByThreeOrJumps := by
  intro p s t op b1 b2 i hh h0 h1 h2 hd h
  rw [stepUnder_of_readByte hh h0 h1 h2 hd] at h
  exact (execUnder_next_cases h).frame.pc_cases

/-- Settles O48: the jump leaves pc at the target, where the next fetch fails at its first byte. -/
theorem jumpBeyondMemoryFaultsAtTheNextFetch : Obligations.JumpBeyondMemoryFaultsAtTheNextFetch := by
  intro p r1 r2 s hh hge
  exact ⟨s.setPc (s.x r1), rfl, stepUnder_of_pc_ge (s := s.setPc (s.x r1)) hh hge⟩

/-! ### The invariant, halted and the trace over steps and runs -/

section Execute

variable {mode : OverflowMode} {i : Instr} {s t : State} (h : execUnder mode i s = .next t)

include h

/-- The canonical form of the memory (R28): only STORE writes, by a word write inside memory. -/
theorem execUnder_keeps_mem_wf (hs : s.mem.wf) : t.mem.wf := by
  by_cases hi : ∃ r1 r2, i = .store r1 r2
  · obtain ⟨r1, r2, rfl⟩ := hi
    obtain ⟨m, hm, rfl⟩ := exec_store_next h
    exact (frame_of_writeWord hm).2 hs
  · simp only [not_exists] at hi
    rwa [(execUnder_next_cases h).frame.mem_eq hi]

/-- The reserved flag bits (R24): only CMP writes the flags, and it clears them. -/
theorem execUnder_keeps_reserved (hs : s.flags &&& reservedFlags = 0) : t.flags &&& reservedFlags = 0 := by
  by_cases hi : ∃ r1 r2, i = .cmp r1 r2
  · obtain ⟨r1, r2, rfl⟩ := hi
    cases h
    exact packFlags_reserved _ _ _
  · simp only [not_exists] at hi
    rwa [(execUnder_next_cases h).frame.flags_eq hi]

end Execute

section Step

variable {p : Params} {s t : State} (h : stepUnder p s = .next t)

include h

theorem stepUnder_keeps_inv (hs : s.Inv) : t.Inv := by
  obtain ⟨hmem, hflags⟩ := hs
  rcases stepUnder_next_cases h with ⟨-, rfl⟩ | ⟨-, -, i, -, he⟩
  · exact ⟨hmem, hflags⟩
  · exact ⟨execUnder_keeps_mem_wf he hmem, execUnder_keeps_reserved he hflags⟩

/-- A halted engine's step leaves it as it is (R69). -/
theorem stepUnder_keeps_halted (hs : s.halted = true) : t.halted = true := by
  rw [stepUnder_of_halted hs] at h
  cases h
  exact hs

theorem stepUnder_trace_prefix : s.trace <+: t.trace := by
  rcases stepUnder_next_cases h with ⟨-, rfl⟩ | ⟨-, -, i, -, he⟩
  · exact List.prefix_rfl
  · exact (execUnder_next_cases he).frame.trace_prefix

end Step

/-- What every step keeps, every run of the host's machine keeps. -/
theorem coreRun_keeps {P : State → Prop} (hstep : ∀ s t, step s = .next t → P s → P t) {k : Nat} {s t : State}
    (h : Host.Core.run Sys2Proof.core k s = .next t) (hs : P s) : P t := by
  induction k generalizing s with
  | zero =>
    cases h
    exact hs
  | succ k ih =>
    simp only [Host.Core.run] at h
    split at h
    · next u hu => exact ih h (hstep s u hu hs)
    · cases h
    · cases h

/-- Settles O14: the empty memory is canonical and the reset flags are 0. -/
theorem resetMeetsInvariant : Obligations.ResetMeetsInvariant :=
  ⟨Memory.wf_nil, rfl⟩

/-- Settles O15: by the step lemma at the default parameters and at any. -/
theorem stepKeepsInvariant : Obligations.StepKeepsInvariant :=
  ⟨fun _ _ hs h => stepUnder_keeps_inv h hs, fun _ _ _ hs h => stepUnder_keeps_inv h hs⟩

/-- Settles O16: each of the three is kept by every step, so by every run. -/
theorem runsKeepInvariantHaltedAndTrace : Obligations.RunsKeepInvariantHaltedAndTrace := by
  intro k s t hs h
  have grows : s.trace <+: t.trace :=
    coreRun_keeps (P := (s.trace <+: ·.trace)) (fun _ _ hu hp => hp.trans (stepUnder_trace_prefix hu)) h
      List.prefix_rfl
  obtain ⟨events, he⟩ := grows
  exact ⟨coreRun_keeps (fun _ _ => stepUnder_keeps_inv) h hs,
    coreRun_keeps (P := (·.halted = true)) (fun _ _ => stepUnder_keeps_halted) h, events, he.symm⟩

/-! ### Setting and clearing halted -/

/-- A reinitialised engine is the engine constructed afresh with the parameters it had (R231). -/
theorem Engine.eq_construct_of_reinitialise {d : Device} {e n : Engine} (h : e.reinitialise d = some n) :
    n = Engine.construct e.params d := by
  unfold Engine.reinitialise at h
  split at h <;> cases h <;> rfl

/-- Settles O17: HALT sets halted and the frame keeps it otherwise; a step keeps it; construction clears it. -/
theorem onlyHaltSetsHalted : Obligations.OnlyHaltSetsHalted := by
  refine ⟨rfl, fun i s t h => ?_, fun p s t => stepUnder_keeps_halted, fun d e n h => ?_⟩
  · by_cases hi : ∃ r1 r2, i = .halt r1 r2
    · have ht : t.halted = true := by
        obtain ⟨r1, r2, rfl⟩ := hi
        cases h
        rfl
      simp only [ht, hi, or_true]
    · rw [or_iff_left hi]
      simp only [not_exists] at hi
      rw [(exec_next_cases h).frame.halted_eq hi]
  · obtain rfl := Engine.eq_construct_of_reinitialise h
    exact ⟨construct d, rfl, rfl, rfl⟩

end Sys2Proof.Machine

/-! The family 20_memory.md: the byte primitive (O28), the word primitives (O29), a STORE over the next
instruction (O32), and the image of load_program (O58). -/

namespace Sys2Proof.Machine

/-! ### Bytes and words -/

/-- Settles O28: by the law of the byte primitives on either side of their bound check. -/
theorem byteWriteChangesExactlyOneByte : Obligations.ByteWriteChangesExactlyOneByte := by
  intro m a v
  exact ⟨fun hge => ⟨readByte_eq_none.mpr hge, writeByte_of_ge hge⟩, fun hlt => writeByte_spec hlt⟩

section WordWrite

variable {m n : Memory} {a v : Word} (h : writeWord m a v = some n)

include h

/-- The bytes a word write leaves at its four addresses, by their numbers (R44, R47). -/
theorem get_of_writeWord {k : Nat} (hk : k < 4) : n.get (a.toNat + k) = byteOf v k := by
  obtain ⟨n', hn, hget, -⟩ := writeWord_spec (m := m) (v := v) (lt_of_writeWord h)
  obtain rfl := Option.some.inj (h.symm.trans hn)
  exact hget k hk

/-- A byte read after a word write finds the word's byte: none of the four addresses wraps (R44, R47). -/
theorem readByte_of_writeWord {k : Nat} (hk : k < 4) : readByte n (a + BitVec.ofNat 32 k) = some (byteOf v k) := by
  have hlt := lt_of_writeWord h
  have hM : Config.memSize = 65536 := rfl
  have ha : (a + BitVec.ofNat 32 k).toNat = a.toNat + k := add_toNat_of_lt (by omega)
  exact readByte_eq_some.mpr ⟨by omega, by rw [ha, get_of_writeWord h hk]⟩

theorem readByte_of_writeWord_zero : readByte n a = some (byteOf v 0) := by
  simpa using readByte_of_writeWord h (k := 0) (by decide)

/-- A word written reads back (R45): its four bytes, put together again, are the word. -/
theorem readWord_of_writeWord : readWord n a = some v := by
  have get0 : n.get a.toNat = byteOf v 0 := get_of_writeWord h (k := 0) (by decide)
  rw [readWord_of_lt (lt_of_writeWord h), get0, get_of_writeWord h (by decide), get_of_writeWord h (by decide),
    get_of_writeWord h (by decide), wordOfBytes_byteOf]

end WordWrite

/-- The round trip of R45 and the four bytes, at every valid address. -/
theorem writeWord_round_trip (m : Memory) {a : Word} (v : Word) (ha : a.toNat ≤ 65532) :
    ∃ n, writeWord m a v = some n ∧ readWord n a = some v ∧
      readByte n a = some (v.extractLsb' 0 8) ∧ readByte n (a + 1#32) = some (v.extractLsb' 8 8) ∧
      readByte n (a + 2#32) = some (v.extractLsb' 16 8) ∧ readByte n (a + 3#32) = some (v.extractLsb' 24 8) := by
  obtain ⟨n, hn, -⟩ := writeWord_spec (m := m) (a := a) (v := v) (Nat.lt_succ_of_le (Nat.add_le_add_right ha 3))
  exact ⟨n, hn, readWord_of_writeWord hn, readByte_of_writeWord_zero hn, readByte_of_writeWord hn (by decide),
    readByte_of_writeWord hn (by decide), readByte_of_writeWord hn (by decide)⟩

/-- Settles O29: the round trip at every valid address, and at 0 for the spec's example. -/
theorem wordRoundTrip : Obligations.WordRoundTrip := by
  refine ⟨fun m a v ha => writeWord_round_trip m v ha, fun m => ?_⟩
  obtain ⟨n, hn, -, h0, h1, h2, h3⟩ := writeWord_round_trip m (a := 0) 0x12345678 (by decide)
  exact ⟨n, hn, h0, h1, h2, h3⟩

/-! ### A STORE over the next instruction -/

/-- Where the three bytes at pc can be read they are fetched, and pc is advanced by 3 (R70). -/
theorem fetch_of_readByte {s : State} {op b1 b2 : Byte} (h0 : readByte s.mem s.pc = some op)
    (h1 : readByte s.mem (s.pc + 1#32) = some b1) (h2 : readByte s.mem (s.pc + 2#32) = some b2) :
    fetch s = (.ok ⟨op, b1, b2⟩, s.setPc (s.pc + 3#32)) := by
  obtain ⟨hlt, hw⟩ := wordAtPc_of_readByte h0 h1 h2
  rw [fetch_of_lt hlt, hw]

/-- A fetch at an address where a word was written finds the word's three low bytes (R55, R239). -/
theorem fetch_of_writeWord_at_pc {m : Memory} {s : State} {v : Word} (h : writeWord m s.pc v = some s.mem) :
    fetch s = (.ok ⟨byteOf v 0, byteOf v 1, byteOf v 2⟩, s.setPc (s.pc + 3#32)) :=
  fetch_of_readByte (readByte_of_writeWord_zero h) (readByte_of_writeWord h (by decide))
    (readByte_of_writeWord h (by decide))

/-- A STORE whose word write answers completes with the memory it left (R111). -/
theorem exec_store_of_writeWord {r1 r2 : Reg} {s : State} {m : Memory}
    (h : writeWord s.mem (s.x r2) (s.x r1) = some m) : exec (.store r1 r2) s = .next (s.setMem m) := by
  simp only [exec, execStore, effectiveAddress, h]

/-- Settles O32: the step's STORE writes its word at the pc it leaves, where the next fetch reads it. -/
theorem storeIsSeenByTheNextFetch : Obligations.StoreIsSeenByTheNextFetch := by
  intro p s op b1 b2 r1 r2 hh h0 h1 h2 hd hx hle
  obtain ⟨m, hm, -⟩ := writeWord_round_trip s.mem (s.x r1) hle
  refine ⟨(s.setPc (s.pc + 3#32)).setMem m, ?_, ?_⟩
  · rw [stepUnder_of_readByte hh h0 h1 h2 hd, execUnder_of_ne_cmp (by simp)]
    exact exec_store_of_writeWord hm
  · have he : s.pc + 3#32 + 3#32 = s.pc + 6#32 := BitVec.add_assoc s.pc 3#32 3#32
    rw [hx] at hm
    rw [fetch_of_writeWord_at_pc hm, State.setMem_pc, State.setPc_pc, he]
    rfl

/-! ### The image -/

section Image

variable {image : List Byte} {a : Word} (m : Memory)

/-- A byte of an image written from address 0 on lies at its own index (R46). -/
theorem readByte_writeBytes_image (ha : a.toNat < image.length) (hl : image.length ≤ Config.memSize) :
    readByte (writeBytes m 0 image) a = some image[a.toNat] :=
  readByte_eq_some.mpr ⟨by omega, by simp [Memory.get_writeBytes, ha]⟩

theorem readByte_writeBytes_beyond_image (ha : image.length ≤ a.toNat) :
    readByte (writeBytes m 0 image) a = readByte m a := by
  have hget : (writeBytes m 0 image).get a.toNat = m.get a.toNat := by
    rw [Memory.get_writeBytes, dif_neg (by omega)]
  rw [readByte, readByte, hget]

end Image

/-- Settles O58: the image and the bytes beyond it by the law of a block of bytes, all else untouched. -/
theorem loadProgramWritesTheImage : Obligations.LoadProgramWritesTheImage := by
  intro image s
  refine ⟨fun hl => ⟨_, loadProgram_of_le hl s, fun a ha => readByte_writeBytes_image s.mem ha hl,
    fun a ha => readByte_writeBytes_beyond_image s.mem ha, fun _ => rfl, rfl, rfl, rfl, ⟨rfl, rfl⟩, ?_⟩,
    fun hl => loadProgram_of_gt hl s⟩
  rintro ⟨hmem, hflags⟩
  exact ⟨Memory.wf_writeBytes image hmem 0 (by rwa [Nat.zero_add]), hflags⟩

end Sys2Proof.Machine

/-! The family 30_encoding.md: the encoding and the decoder (O1 to O5), the fetch, the two checks of a fetched word
and the unused operands (O7 to O9, O23), and run() as the cycle repeated (O53, O55 to O57). -/

namespace Sys2Proof

/-! ### The round trips -/

theorem Mnemonic.mem_defaultOpcodeMap (k : Mnemonic) : k ∈ defaultOpcodeMap.map Prod.snd := by
  cases k <;> decide

/-- Under a legal map every mnemonic has a row: its 21 rows name 21 different mnemonics, and there are no
more (R65). -/
theorem OpcodeMap.exists_row {m : OpcodeMap} (hm : m.WellFormed) (k : Mnemonic) : ∃ op, (op, k) ∈ m := by
  obtain ⟨hlen, -, hnodup, -⟩ := hm
  have hsub : m.map Prod.snd ⊆ defaultOpcodeMap.map Prod.snd := fun j _ => j.mem_defaultOpcodeMap
  have hperm : (m.map Prod.snd).Perm (defaultOpcodeMap.map Prod.snd) :=
    (List.subperm_of_subset hnodup hsub).perm_of_length_le (by simp [hlen, defaultOpcodeMap])
  obtain ⟨row, hrow, rfl⟩ := List.mem_map.mp (hperm.mem_iff.mpr k.mem_defaultOpcodeMap)
  exact ⟨row.1, hrow⟩

/-- What a word that decodes is made of: the handler of its opcode and the registers of its operand bytes
(R61, R71, R72). -/
theorem decodeUnder_eq_ok {m : OpcodeMap} {w : RawInsn} {i : Instr} :
    decodeUnder m w = .ok i ↔ m.handler w.op = some i.mnemonic ∧
      operandReg w.b1 = some i.operands.1 ∧ operandReg w.b2 = some i.operands.2 := by
  constructor
  · intro h
    rcases decodeUnder_cases m w with ⟨-, hd⟩ | ⟨k, -, -, hd⟩ | ⟨k, r1, r2, hk, h1, h2, hd⟩
    · cases h.symm.trans hd
    · cases h.symm.trans hd
    · cases h.symm.trans hd
      simp [hk, operandReg_eq_some, h1, h2]
  · rintro ⟨hk, h1, h2⟩
    simp [decodeUnder, hk, h1, h2]

theorem decodeUnder_of_handler_none {m : OpcodeMap} {w : RawInsn} (h : m.handler w.op = none) :
    decodeUnder m w = .error (.unknownOpcode w.op) := by
  simp [decodeUnder, h]

/-- A known opcode with an operand byte of 8 or more in either place (R72). -/
theorem decodeUnder_of_operand_ge {m : OpcodeMap} {w : RawInsn} {k : Mnemonic} (hk : m.handler w.op = some k)
    (hb : 8 ≤ w.b1.toNat ∨ 8 ≤ w.b2.toNat) : decodeUnder m w = .error (.illegalOperand w.b1 w.b2) := by
  rcases decodeUnder_cases m w with ⟨hn, -⟩ | ⟨-, -, -, hd⟩ | ⟨-, r1, r2, -, h1, h2, -⟩
  · cases hk.symm.trans hn
  · exact hd
  · omega

/-- Settles O1: the mnemonic has a row, which both look-ups find, and each register's byte names it. -/
theorem decodeOfEncode : Obligations.DecodeOfEncode := by
  intro m hm i
  obtain ⟨op, hrow⟩ := OpcodeMap.exists_row hm i.mnemonic
  obtain ⟨-, hbytes, hnames, -⟩ := hm
  exact ⟨⟨op, operandByte i.operands.1, operandByte i.operands.2⟩,
    by rw [encodeUnder, OpcodeMap.code_of_mem hnames hrow, Option.map_some],
    decodeUnder_eq_ok.mpr ⟨OpcodeMap.handler_of_mem hbytes hrow, operandReg_operandByte _, operandReg_operandByte _⟩⟩

/-- Settles O2: the opcode's row is its mnemonic's only one, and each operand byte is its register's only one. -/
theorem encodeOfDecode : Obligations.EncodeOfDecode := by
  intro m hm w i h
  obtain ⟨-, -, hnames, -⟩ := hm
  obtain ⟨hk, h1, h2⟩ := decodeUnder_eq_ok.mp h
  rw [encodeUnder, OpcodeMap.code_of_mem hnames (OpcodeMap.mem_of_handler hk), operandByte_of_operandReg h1,
    operandByte_of_operandReg h2, Option.map_some]

/-- Settles O3: each of the decoder's three answers has its own cause, and the causes exclude each other. -/
theorem wordsAreOfThreeKinds : Obligations.WordsAreOfThreeKinds := by
  intro m w
  rcases decodeUnder_cases m w with ⟨hk, hd⟩ | ⟨k, hk, hb, hd⟩ | ⟨k, r1, r2, hk, h1, h2, hd⟩
  · simp [hk, hd]
  · have hb' : ¬ (w.b1.toNat < 8 ∧ w.b2.toNat < 8) := by omega
    simp [hk, hd, hb, hb']
  · simp [hk, hd, h1, h2]

/-- Settles O4: each word computed. -/
theorem sampleWordsDecode : Obligations.SampleWordsDecode :=
  ⟨rfl, rfl, rfl, rfl, rfl, rfl, rfl, rfl, rfl⟩

/-- Settles O5: the map's 21 rows checked for R65, and each of the 256 bytes looked up. -/
theorem defaultMapIsTheTableOfR66 : Obligations.DefaultMapIsTheTableOfR66 :=
  ⟨by decide, by decide⟩

end Sys2Proof

namespace Sys2Proof.Machine

/-! ### The fetch and the checks of a fetched word -/

/-- The address a fetch fails at is the first one outside memory (R70). -/
theorem State.fetchLimit_toNat (s : State) : s.fetchLimit.toNat = max s.pc.toNat 65536 := by
  have hM : Config.memSize = 65536 := rfl
  unfold State.fetchLimit
  split
  · rw [BitVec.toNat_ofNat]
    omega
  · omega

/-- Settles O7: by the two cases of the fetch. -/
theorem fetchReadsThreeBytesOrFaults : Obligations.FetchReadsThreeBytesOrFaults := by
  refine ⟨fun s op b1 b2 => fetch_of_readByte, fun p s hh hpc => ?_⟩
  have hge : Config.memSize ≤ s.pc.toNat + 2 := by
    have hM : Config.memSize = 65536 := rfl
    omega
  exact ⟨s.fetchLimit, s.fetchLimit_toNat, stepUnder_of_ge hh hge, by rw [stateLeftByFault, fetch_of_ge hge]; rfl⟩

/-- A running engine raises the decoder's fault where the three bytes at pc are no instruction (R71, R72). -/
theorem stepUnder_of_readByte_error {p : Params} {s : State} {op b1 b2 : Byte} {e : DecodeError}
    (hh : s.halted = false) (h0 : readByte s.mem s.pc = some op) (h1 : readByte s.mem (s.pc + 1#32) = some b1)
    (h2 : readByte s.mem (s.pc + 2#32) = some b2) (hd : decodeUnder p.opcodeMap ⟨op, b1, b2⟩ = .error e) :
    stepUnder p s = .fault (decodeFault s.pc e) := by
  obtain ⟨hlt, hw⟩ := wordAtPc_of_readByte h0 h1 h2
  rw [stepUnder_of_lt hh hlt, hw, hd]

/-- Settles O8: the decoder looks the opcode up before it looks at the operands. -/
theorem unknownOpcodeFaults : Obligations.UnknownOpcodeFaults :=
  fun _ _ _ _ _ hh h0 h1 h2 hk => stepUnder_of_readByte_error hh h0 h1 h2 (decodeUnder_of_handler_none hk)

/-- Settles O9: the decoder's answer for a known opcode, on either side of the operand check. -/
theorem operandsAreCheckedBeforeTheHandler : Obligations.OperandsAreCheckedBeforeTheHandler := by
  intro p s op b1 b2 k hh h0 h1 h2 hk
  refine ⟨fun hb => stepUnder_of_readByte_error hh h0 h1 h2 (decodeUnder_of_operand_ge hk hb), fun r1 r2 e1 e2 => ?_⟩
  have hd : decodeUnder p.opcodeMap ⟨op, b1, b2⟩ = .ok (k.instr r1 r2) := by
    simp [decodeUnder_eq_ok, hk, operandReg_eq_some, e1, e2]
  exact stepUnder_of_readByte hh h0 h1 h2 hd

/-- Settles O23: no handler of these instructions reads its unused operands. -/
theorem unusedOperandsHaveNoEffect : Obligations.UnusedOperandsHaveNoEffect :=
  fun _ _ _ _ => ⟨rfl, rfl, rfl, rfl, rfl, rfl, rfl, rfl, rfl⟩

/-! ### run() turn by turn -/

section Run

variable {p : Params} {s : State}

theorem runUnder_of_halted (h : s.halted = true) (k : Nat) : runUnder p k s = .halted s s.report := by
  cases k <;> simp only [runUnder, h, if_true]

theorem runUnder_zero (h : s.halted = false) : runUnder p 0 s = .running s := by
  simp [runUnder, h]

theorem halted_of_stepUnder_ne_next (h : stepUnder p s ≠ .next s) : s.halted = false :=
  Bool.eq_false_iff.mpr fun hh => h (stepUnder_of_halted hh)

/-- A turn that answers a next state is one of the turns counted; that of a halted engine changes nothing
(R69). -/
theorem runUnder_succ_of_next {t : State} (h : stepUnder p s = .next t) (k : Nat) :
    runUnder p (k + 1) s = runUnder p k t := by
  cases hh : s.halted with
  | true =>
    cases (stepUnder_of_halted hh).symm.trans h
    rw [runUnder_of_halted hh, runUnder_of_halted hh]
  | false => simp [runUnder, hh, h]

theorem runUnder_succ_of_fault {f : Fault} (h : stepUnder p s = .fault f) (k : Nat) :
    runUnder p (k + 1) s = .faulted f (stateLeftByFault s) := by
  have hh : s.halted = false := halted_of_stepUnder_ne_next (p := p) (by simp [h])
  simp [runUnder, hh, h]

theorem runUnder_succ_of_refused {r : Refusal} (h : stepUnder p s = .refused r) (k : Nat) :
    runUnder p (k + 1) s = .waiting r s := by
  have hh : s.halted = false := halted_of_stepUnder_ne_next (p := p) (by simp [h])
  simp [runUnder, hh, h]

end Run

/-- How a run stands after `j` further turns of its loop: it goes on if it was still running, and stays as it
ended or waits otherwise (R238). -/
def RunEnd.after (p : Params) (j : Nat) : RunEnd → RunEnd
  | .running t => runUnder p j t
  | r => r

/-- Turns counted in two parts make the same run as all of them counted at once. -/
theorem runUnder_add (p : Params) (k j : Nat) (s : State) :
    runUnder p (k + j) s = (runUnder p k s).after p j := by
  induction k generalizing s with
  | zero =>
    rw [Nat.zero_add]
    cases hh : s.halted with
    | true => rw [runUnder_of_halted hh, runUnder_of_halted hh]; rfl
    | false => rw [runUnder_zero hh]; rfl
  | succ k ih =>
    rw [Nat.add_right_comm]
    cases h : stepUnder p s with
    | next t => rw [runUnder_succ_of_next h, runUnder_succ_of_next h, ih]
    | fault f => rw [runUnder_succ_of_fault h, runUnder_succ_of_fault h]; rfl
    | refused r => rw [runUnder_succ_of_refused h, runUnder_succ_of_refused h]; rfl

/-- Settles O53: further turns change nothing of a run that ended. -/
theorem endedRunsStayEnded : Obligations.EndedRunsStayEnded := by
  intro p k j s t r f
  exact ⟨fun h => by rw [runUnder_add, h]; rfl, fun h => by rw [runUnder_add, h]; rfl⟩

/-! ### Waiting -/

/-- The inversion of `exec` where it answers a refusal (R120): an INPUT whose device has not answered. -/
theorem exec_refused_cases {i : Instr} {s : State} {r : Refusal} (h : exec i s = .refused r) :
    r = .waitingForInput ∧ s.device = .queued [] ∧ ∃ r1 r2, i = .input r1 r2 := by
  cases i with
  | input r1 r2 =>
    simp only [exec, execInput] at h
    split at h
    · cases h
    · next hd =>
      cases h
      exact ⟨rfl, ioInput_eq_none.mp hd, r1, r2, rfl⟩
  | div r1 r2 =>
    simp only [exec, execDiv] at h
    split at h <;> cases h
  | load r1 r2 =>
    simp only [exec, execLoad] at h
    split at h <;> cases h
  | store r1 r2 =>
    simp only [exec, execStore] at h
    split at h <;> cases h
  | _ => cases h

/-- The inversion of a step that answers a refusal: it fetched an INPUT whose device has not answered. -/
theorem stepUnder_refused_cases {p : Params} {s : State} {r : Refusal} (h : stepUnder p s = .refused r) :
    s.halted = false ∧ r = .waitingForInput ∧ s.device = .queued [] ∧ s.pc.toNat + 2 < Config.memSize ∧
      ∃ r1 r2, decodeUnder p.opcodeMap s.wordAtPc = .ok (.input r1 r2) := by
  have hh : s.halted = false := halted_of_stepUnder_ne_next (p := p) (by simp [h])
  by_cases hb : s.pc.toNat + 2 < Config.memSize
  · rw [stepUnder_of_lt hh hb] at h
    cases hd : decodeUnder p.opcodeMap s.wordAtPc with
    | error e => simp [hd] at h
    | ok i =>
      simp only [hd] at h
      obtain ⟨hr, hdev, r1, r2, rfl⟩ := exec_refused_cases (execUnder_refused_iff.mp h)
      exact ⟨hh, hr, hdev, hb, r1, r2, rfl⟩
  · rw [stepUnder_of_ge hh (Nat.le_of_not_lt hb)] at h
    cases h

/-- Once the answer is supplied, the step that waited completes its INPUT with it (R120, R122). -/
theorem stepUnder_supplyAnswer_of_refused {p : Params} {s : State} {r : Refusal} (h : stepUnder p s = .refused r)
    (v : Word) :
    ∃ u, stepUnder p (supplyAnswer v s) = .next u ∧ u.trace = s.trace ++ [.received v] ∧ u.pc = s.pc + 3#32 ∧
      ∃ q, u.x q = v := by
  obtain ⟨hh, -, hdev, hb, r1, r2, hd⟩ := stepUnder_refused_cases h
  have hs : supplyAnswer v s = s.setDevice (.queued [v]) := by simp [supplyAnswer, hdev]
  have hstep : stepUnder p (s.setDevice (.queued [v])) =
      execInput r1 r2 ((s.setDevice (.queued [v])).setPc (s.pc + 3#32)) := by
    rw [stepUnder_of_lt (s := s.setDevice (.queued [v])) hh hb]
    simp only [show (s.setDevice (.queued [v])).wordAtPc = s.wordAtPc from rfl, hd]
    rfl
  rw [hs, hstep]
  exact ⟨_, rfl, rfl, rfl, r1, State.setX_x_same _ r1 v⟩

/-- Settles O56: by induction on the turns, the last of which left the state that tells how the run ended. -/
theorem runEndsSayHowTheRunEnded : Obligations.RunEndsSayHowTheRunEnded := by
  intro p k s
  induction k generalizing s with
  | zero =>
    cases hh : s.halted with
    | true => rw [runUnder_of_halted hh]; exact ⟨hh, rfl⟩
    | false => rw [runUnder_zero hh]; exact hh
  | succ k ih =>
    cases h : stepUnder p s with
    | next t => rw [runUnder_succ_of_next h]; exact ih t
    | fault f =>
      obtain ⟨hh, -⟩ := stepUnder_fault_cases h
      obtain ⟨v, hs, -⟩ := stateLeftByFault_eq_setPc s
      rw [runUnder_succ_of_fault h, hs]
      exact hh
    | refused r =>
      obtain ⟨hh, hr, -⟩ := stepUnder_refused_cases h
      rw [runUnder_succ_of_refused h]
      exact ⟨hr, hh, h⟩

/-! ### The engine's runs -/

theorem Engine.run_of_idle {e : Engine} {s : State} (h : e.phase = .idle s) (k : Nat) :
    e.run k = some (runUnder e.params k s, ⟨e.params, (runUnder e.params k s).phase⟩) := by
  simp only [Engine.run, h, Engine.loop]

theorem Engine.proceed_of_active {e : Engine} {s : State} (h : e.phase = .active s) (k : Nat) :
    e.proceed k = some (runUnder e.params k s, ⟨e.params, (runUnder e.params k s).phase⟩) := by
  simp only [Engine.proceed, h, Engine.loop]

/-- Of the ways a run can stand, the engine is active in two: still running and waiting (R234, R238). -/
theorem RunEnd.phase_eq_active {r : RunEnd} :
    (∃ u, r.phase = .active u) ↔ (∃ u, r = .running u) ∨ ∃ w u, r = .waiting w u := by
  cases r <;> simp [RunEnd.phase]

theorem stepUnder_of_runUnder_waiting {p : Params} {k : Nat} {s t : State} {why : Refusal}
    (h : runUnder p k s = .waiting why t) : stepUnder p t = .refused why := by
  have hend := runEndsSayHowTheRunEnded p k s
  rw [h] at hend
  obtain ⟨-, -, hstep⟩ := hend
  exact hstep

/-- Settles O55: turns counted in two parts make one run, and a wait ends with the answer supplied. -/
theorem runGoesOnUntilItEnds : Obligations.RunGoesOnUntilItEnds := by
  intro e k j s t why v hs
  refine ⟨_, _, Engine.run_of_idle hs k, rfl, rfl, RunEnd.phase_eq_active, fun hr => ?_, fun hr => ?_⟩
  · have hadd : runUnder e.params (k + j) s = runUnder e.params j t := by rw [runUnder_add, hr]; rfl
    rw [hr, Engine.run_of_idle hs, hadd]
    exact ⟨_, Engine.proceed_of_active rfl j, rfl⟩
  · have hstep : stepUnder e.params t = .refused why := stepUnder_of_runUnder_waiting hr
    have hadd (i : Nat) : runUnder e.params (k + i) s = .waiting why t := by rw [runUnder_add, hr]; rfl
    obtain ⟨u, hu, htrace, hpc, hx⟩ := stepUnder_supplyAnswer_of_refused hstep v
    have hwait (i : Nat) := Engine.proceed_of_active (e := ⟨e.params, .active t⟩) rfl (i + 1)
    have hanswer := Engine.proceed_of_active (e := ⟨e.params, .active (supplyAnswer v t)⟩) rfl (j + 1)
    simp only [runUnder_succ_of_refused hstep] at hwait
    simp only [runUnder_succ_of_next hu] at hanswer
    rw [hr]
    exact ⟨rfl, fun i => ⟨hwait i, by rw [Engine.run_of_idle hs, hadd]⟩, u, _, hu, htrace, hpc, hx, hanswer⟩

/-! ### run() and the host's repeated step -/

/-- A run and as many of the host's steps, told together: by how the steps came out. -/
theorem coreRun_run_cases (k : Nat) (s : State) :
    (∃ t, Host.Core.run Sys2Proof.core k s = .next t ∧
      run k s = if t.halted = true then .halted t ⟨t.regs, t.flags⟩ else .running t) ∨
    (∃ f left, Host.Core.run Sys2Proof.core k s = .fault f ∧ run k s = .faulted f left) ∨
    (∃ r t, Host.Core.run Sys2Proof.core k s = .refused r ∧ run k s = .waiting r t) := by
  induction k generalizing s with
  | zero => exact .inl ⟨s, rfl, rfl⟩
  | succ k ih =>
    have hcore : Sys2Proof.core.step s = stepUnder defaultParams s := rfl
    cases h : stepUnder defaultParams s with
    | next t =>
      simp only [Host.Core.run, run, hcore, h, runUnder_succ_of_next h]
      exact ih t
    | fault f =>
      exact .inr (.inl ⟨f, stateLeftByFault s, by simp only [Host.Core.run, hcore, h], runUnder_succ_of_fault h k⟩)
    | refused r =>
      exact .inr (.inr ⟨r, s, by simp only [Host.Core.run, hcore, h], runUnder_succ_of_refused h k⟩)

/-- Settles O57: by the three ways the steps can come out. -/
theorem runAgreesWithRepeatedSteps : Obligations.RunAgreesWithRepeatedSteps := by
  intro k s
  unfold SafeFor
  rcases coreRun_run_cases k s with ⟨t, hc, hr⟩ | ⟨f, left, hc, hr⟩ | ⟨r, t, hc, hr⟩
  · rw [hc]
    refine ⟨hr, fun _ => ⟨t, ?_⟩, fun _ => ⟨t, rfl⟩⟩
    cases hh : t.halted with
    | true => exact .inl (hr.trans (if_pos hh))
    | false => exact .inr (hr.trans (if_neg (by simp [hh])))
  · rw [hc, hr]
    exact ⟨⟨left, rfl⟩, by simp⟩
  · rw [hc, hr]
    exact ⟨⟨t, rfl⟩, by simp⟩

end Sys2Proof.Machine

/-! The family 40_arithmetic.md: ADD, SUB and MUL (O24, O25, O26) write their result reduced modulo 2^32, and DIV
(O27) writes the quotient or raises DivisionByZero. -/

namespace Sys2Proof.Machine

/-! ### The wrapped results -/

/-- Settles O24: the sum of words is the sum of their values modulo 2^32. -/
theorem addWritesTheWrappedSum : Obligations.AddWritesTheWrappedSum := by
  intro r1 r2 s
  obtain ⟨t, ht, hw⟩ := binaryOp_spec (· + ·) r1 r2 s
  exact ⟨t, _, ht, hw, BitVec.toNat_add _ _⟩

/-- The value of the wrapped difference is the integer difference modulo 2^32, borrow or not (R8, R101). -/
theorem toNat_sub_eq_emod (a b : Word) : ((a - b).toNat : Int) = (a.toNat - b.toNat : Int) % 2 ^ 32 := by
  have hb := b.isLt
  rw [BitVec.toNat_sub]
  omega

/-- Settles O25: the difference of words is the integer difference of their values modulo 2^32. -/
theorem subWritesTheWrappedDifference : Obligations.SubWritesTheWrappedDifference := by
  intro r1 r2 s
  obtain ⟨t, ht, hw⟩ := binaryOp_spec (· - ·) r1 r2 s
  exact ⟨t, _, ht, hw, toNat_sub_eq_emod _ _⟩

/-- Settles O26: the product of words is the product of their values modulo 2^32. -/
theorem mulWritesTheWrappedProduct : Obligations.MulWritesTheWrappedProduct := by
  intro r1 r2 s
  obtain ⟨t, ht, hw⟩ := binaryOp_spec (· * ·) r1 r2 s
  exact ⟨t, _, ht, hw, BitVec.toNat_mul _ _⟩

/-! ### The quotient and its fault -/

section Div

variable {r2 : Reg} {s : State} (r1 : Reg)

/-- DIV by a nonzero register is the two-operand form of the unsigned quotient (R103). -/
theorem exec_div_of_ne_zero (h : s.x r2 ≠ 0) : exec (.div r1 r2) s = binaryOp (· / ·) r1 r2 s := if_neg h

/-- DIV by zero raises DivisionByZero (R103, R202). -/
theorem exec_div_of_eq_zero (h : s.x r2 = 0) : exec (.div r1 r2) s = .fault (.divisionByZero (handlerIa s)) :=
  if_pos h

end Div

/-- While a handler runs pc holds ia + 3, which gives ia back (R22). -/
theorem handlerIa_eq_of_pc {s : State} {ia : Word} (h : s.pc = ia + 3#32) : handlerIa s = ia := by
  rw [handlerIa, h, BitVec.add_sub_cancel]

/-- Settles O27: by the two cases of the divisor; the quotient of words is the quotient of their values. -/
theorem divWritesTheQuotientOrFaults : Obligations.DivWritesTheQuotientOrFaults := by
  intro r1 r2 s
  refine ⟨fun hne => ?_, fun hzero ia hpc => ?_⟩
  · obtain ⟨t, ht, hw⟩ := binaryOp_spec (· / ·) r1 r2 s
    exact ⟨t, _, (exec_div_of_ne_zero r1 hne).trans ht, hw, BitVec.toNat_udiv⟩
  · rw [exec_div_of_eq_zero r1 hzero, handlerIa_eq_of_pc hpc]

end Sys2Proof.Machine

/-! The family 41_memory_access.md: LOAD (O30) and STORE (O31) move one little-endian word at the address in
x[r2], or raise OutOfBounds where its four bytes do not all lie in memory. -/

namespace Sys2Proof.Machine

/-! ### The two handlers on either side of the bound check -/

section Handlers

variable {r1 r2 : Reg} {s : State}

/-- A LOAD whose word read answers completes with that word in r1 (R110). -/
theorem exec_load_of_readWord {v : Word} (h : readWord s.mem (s.x r2) = some v) :
    exec (.load r1 r2) s = .next (s.setX r1 v) := by
  simp only [exec, execLoad, effectiveAddress, h]

/-- Above 65532 LOAD raises OutOfBounds with its address (R110). -/
theorem exec_load_of_gt (h : 65532 < (s.x r2).toNat) :
    exec (.load r1 r2) s = .fault (.outOfBounds (s.x r2) (handlerIa s)) := by
  simp only [exec, execLoad, effectiveAddress, readWord_of_ge (Nat.add_le_add_right h 3), raise]

/-- Above 65532 STORE raises OutOfBounds with its address (R111). -/
theorem exec_store_of_gt (h : 65532 < (s.x r2).toNat) :
    exec (.store r1 r2) s = .fault (.outOfBounds (s.x r2) (handlerIa s)) := by
  simp only [exec, execStore, effectiveAddress, writeWord_of_ge (Nat.add_le_add_right h 3), raise]

end Handlers

/-! ### The word in memory -/

/-- A word read at a valid address is the little-endian value of the four bytes there, and no address of
theirs wraps (R43). -/
theorem readWord_eq_bytes (m : Memory) {a : Word} (ha : a.toNat ≤ 65532) :
    ∃ v b0 b1 b2 b3, readWord m a = some v ∧ readByte m a = some b0 ∧ readByte m (a + 1#32) = some b1 ∧
      readByte m (a + 2#32) = some b2 ∧ readByte m (a + 3#32) = some b3 ∧
      v.toNat = b0.toNat + 2 ^ 8 * b1.toNat + 2 ^ 16 * b2.toNat + 2 ^ 24 * b3.toNat := by
  have hlt : a.toNat + 3 < Config.memSize := Nat.lt_succ_of_le (Nat.add_le_add_right ha 3)
  have hM : Config.memSize = 65536 := rfl
  have byte {k : Nat} (hk : k < 4) : readByte m (a + BitVec.ofNat 32 k) = some (m.get (a.toNat + k)) := by
    have hak : (a + BitVec.ofNat 32 k).toNat = a.toNat + k := add_toNat_of_lt (by omega)
    exact readByte_eq_some.mpr ⟨by omega, by rw [hak]⟩
  exact ⟨_, _, _, _, _, readWord_of_lt hlt, readByte_eq_some.mpr ⟨by omega, rfl⟩, byte (by decide),
    byte (by decide), byte (by decide), wordOfBytes_toNat _ _ _ _⟩

/-- The value of a word from its four bytes, the least significant first (R47). -/
theorem toNat_eq_bytes (v : Word) :
    v.toNat = (byteOf v 0).toNat + 2 ^ 8 * (byteOf v 1).toNat + 2 ^ 16 * (byteOf v 2).toNat +
      2 ^ 24 * (byteOf v 3).toNat :=
  calc v.toNat = (wordOfBytes (byteOf v 0) (byteOf v 1) (byteOf v 2) (byteOf v 3)).toNat := by
        rw [wordOfBytes_byteOf]
    _ = _ := wordOfBytes_toNat _ _ _ _

/-! ### The obligations -/

/-- Settles O30: by the two sides of the bound check; below it the word read has the value of its bytes. -/
theorem loadWritesTheWordOrFaults : Obligations.LoadWritesTheWordOrFaults := by
  rintro r1 r2 s ea rfl
  refine ⟨fun hle => ?_, fun hgt ia hpc => ?_⟩
  · obtain ⟨v, b0, b1, b2, b3, hv, hbytes⟩ := readWord_eq_bytes s.mem hle
    exact ⟨_, v, b0, b1, b2, b3, exec_load_of_readWord hv, writesOnly_setX s r1 v, hbytes⟩
  · rw [exec_load_of_gt hgt, handlerIa_eq_of_pc hpc]

/-- Settles O31: by the two sides of the bound check; below it the word write leaves the word's bytes, and the memory
frame of a STORE keeps the others. -/
theorem storeWritesTheWordOrFaults : Obligations.StoreWritesTheWordOrFaults := by
  rintro r1 r2 s ea rfl
  refine ⟨rfl, fun hle => ?_, fun hgt ia hpc => ?_⟩
  · obtain ⟨m, hm, -, h0, h1, h2, h3⟩ := writeWord_round_trip s.mem (s.x r1) hle
    have ht : exec (.store r1 r2) s = .next (s.setMem m) := exec_store_of_writeWord hm
    have hframe : SameMemOutside (effectiveAddress r2 s) s (s.setMem m) :=
      (onlyStoreWritesMemory _ s _ ht).2 r1 r2 rfl
    exact ⟨_, _, _, _, _, ht, h0, h1, h2, h3, toNat_eq_bytes (s.x r1), hframe, fun _ => rfl, rfl, rfl, rfl, rfl, rfl⟩
  · rw [exec_store_of_gt hgt, handlerIa_eq_of_pc hpc, effectiveAddress]

end Sys2Proof.Machine

/-! The family 42_io.md: INPUT takes the device's answer (O33) or waits for one (O34), and is the only instruction
that can wait (O12); OUTPUT sends x[r1] (O35); no other instruction makes an I/O event (O22). -/

namespace Sys2Proof.Machine

/-! ### The two handlers -/

section Handlers

variable {s : State} (r1 r2 : Reg)

/-- INPUT with an answer completes: the answer is taken, recorded and written to r1 (R120, R122). -/
theorem exec_input_of_answer (h : s.device ≠ .queued []) :
    ∃ v d, exec (.input r1 r2) s = .next (((s.setDevice d).record (.received v)).setX r1 v) ∧
      ((s.device = .free ∧ d = .free) ∨ ∃ rest, s.device = .queued (v :: rest) ∧ d = .queued rest) := by
  cases hio : ioInput s with
  | none => exact absurd (ioInput_eq_none.mp hio) h
  | some answer =>
    obtain ⟨v, u⟩ := answer
    obtain ⟨d, rfl, hd⟩ := ioInput_cases hio
    exact ⟨v, d, by simp only [exec, execInput, hio], hd⟩

/-- INPUT without an answer has no next state and raises no fault (R120, R238). -/
theorem exec_input_of_no_answer (h : s.device = .queued []) :
    exec (.input r1 r2) s = .refused .waitingForInput := by
  simp only [exec, execInput, ioInput_eq_none.mpr h]

/-- OUTPUT completes with the record of the value sent (R121, R122). -/
theorem exec_output (s : State) : exec (.output r1 r2) s = .next (s.record (.sent (s.x r1))) := rfl

end Handlers

/-- The first answer supplied to a device that had none is the only one (R120). -/
theorem supplyAnswer_device_of_no_answer {s : State} (h : s.device = .queued []) (v : Word) :
    (supplyAnswer v s).device = .queued [v] := by
  simp only [supplyAnswer, h, List.nil_append, State.setDevice_device]

/-- Settles O33: the completed INPUT's fields, and its answer by the kind of device. -/
theorem inputWritesTheDevicesAnswer : Obligations.InputWritesTheDevicesAnswer := by
  intro r1 r2 s h
  obtain ⟨v, d, ht, hd⟩ := exec_input_of_answer r1 r2 h
  refine ⟨_, v, ht, State.setX_x_same _ r1 v, fun q hq => State.setX_x_other _ r1 v q hq, rfl, fun hf => ?_,
    fun w rest hw => ?_, rfl, rfl, rfl, fun _ => rfl⟩
  · rcases hd with ⟨-, rfl⟩ | ⟨rest, hq, -⟩
    · rfl
    · cases hf.symm.trans hq
  · rcases hd with ⟨hf, -⟩ | ⟨rest', hq, rfl⟩
    · cases hf.symm.trans hw
    · cases hq.symm.trans hw
      exact ⟨rfl, rfl⟩

/-- Settles O34: an INPUT waits without an answer, and completes with the only one once it is supplied. -/
theorem inputWaitsUntilAnswered : Obligations.InputWaitsUntilAnswered := by
  intro r1 r2 s v h
  have hsupplied : (supplyAnswer v s).device = .queued [v] := supplyAnswer_device_of_no_answer h v
  obtain ⟨t, w, ht, hx, -, -, -, hqueue, -⟩ :=
    inputWritesTheDevicesAnswer r1 r2 (supplyAnswer v s) (by simp [hsupplied])
  obtain ⟨rfl, hdevice⟩ := hqueue v [] hsupplied
  exact ⟨exec_input_of_no_answer r1 r2 h, t, ht, hx, hdevice⟩

/-- Settles O35: of the state after OUTPUT only the trace differs. -/
theorem outputSendsTheRegister : Obligations.OutputSendsTheRegister :=
  fun r1 r2 s => ⟨_, exec_output r1 r2 s, rfl, rfl, fun _ => rfl, rfl, rfl, rfl, fun _ => rfl⟩

/-! ### I/O events and waiting in the whole machine -/

/-- The I/O frame: a handler other than INPUT's and OUTPUT's keeps the device and the trace (R122). -/
theorem EffectOf.sameIo {mode : OverflowMode} {i : Instr} {s t : State} (h : EffectOf mode i s t)
    (hin : ∀ r1 r2, i ≠ .input r1 r2) (hout : ∀ r1 r2, i ≠ .output r1 r2) : SameIo s t := by
  rcases h with ⟨_, _, -, -, -, rfl⟩ | ⟨r1, r2, _, _, hi, -⟩ | ⟨_, _, _, -, -, rfl⟩ | ⟨r1, r2, hi, -⟩ |
    ⟨_, _, -, rfl⟩ | ⟨_, -, -, rfl | rfl⟩ | ⟨_, _, -, rfl⟩
  case inr.inl => exact absurd hi (hin r1 r2)
  case inr.inr.inr.inl => exact absurd hi (hout r1 r2)
  all_goals exact ⟨rfl, rfl⟩

/-- The event of an INPUT that completes holds the value r1 received (R122). -/
theorem trace_of_exec_input {r1 r2 : Reg} {s t : State} (h : exec (.input r1 r2) s = .next t) :
    t.trace = s.trace ++ [.received (t.x r1)] := by
  by_cases hd : s.device = .queued []
  · rw [exec_input_of_no_answer r1 r2 hd] at h
    cases h
  · obtain ⟨t', v, ht, rfl, -, htrace, -⟩ := inputWritesTheDevicesAnswer r1 r2 s hd
    cases ht.symm.trans h
    exact htrace

/-- Settles O22: INPUT's event, OUTPUT's event, and the I/O frame of every other instruction. -/
theorem ioEventsAreRecordedInOrder : Obligations.IoEventsAreRecordedInOrder := by
  intro i s t h
  refine ⟨?_, ?_, fun hin => ?_, fun hin hout => ((exec_next_cases h).sameIo hin hout).2⟩
  · rintro r1 r2 rfl
    exact trace_of_exec_input h
  · rintro r1 r2 rfl
    cases h
    rfl
  · by_cases hout : ∃ r1 r2, i = .output r1 r2
    · obtain ⟨r1, r2, rfl⟩ := hout
      cases h
      rfl
    · simp only [not_exists] at hout
      exact ((exec_next_cases h).sameIo hin hout).1

/-- A byte at an offset from an address can be read where the sum lies in memory: the sum does not wrap (R41). -/
theorem readByte_add_of_lt {m : Memory} {a : Word} {k : Nat} (h : a.toNat + k < Config.memSize) :
    readByte m (a + BitVec.ofNat 32 k) = some (m.get (a.toNat + k)) := by
  have hM : Config.memSize = 65536 := rfl
  have hak : (a + BitVec.ofNat 32 k).toNat = a.toNat + k := add_toNat_of_lt (by omega)
  exact readByte_eq_some.mpr ⟨by omega, by rw [hak]⟩

/-- Where the three bytes at pc lie in memory, each can be read (R70). -/
theorem readByte_wordAtPc {s : State} (h : s.pc.toNat + 2 < Config.memSize) :
    readByte s.mem s.pc = some s.wordAtPc.op ∧ readByte s.mem (s.pc + 1#32) = some s.wordAtPc.b1 ∧
      readByte s.mem (s.pc + 2#32) = some s.wordAtPc.b2 :=
  ⟨readByte_eq_some.mpr ⟨by omega, rfl⟩, readByte_add_of_lt (by omega), readByte_add_of_lt h⟩

/-- Settles O12: by the inversion of a refused step, whose fetch read the three bytes at pc. -/
theorem onlyInputWaits : Obligations.OnlyInputWaits := by
  intro p s r h
  obtain ⟨-, hr, hdevice, hlt, r1, r2, hdecode⟩ := stepUnder_refused_cases h
  obtain ⟨h0, h1, h2⟩ := readByte_wordAtPc hlt
  exact ⟨hr, hdevice, _, _, _, r1, r2, h0, h1, h2, hdecode⟩

end Sys2Proof.Machine

/-! The family 43_logic_shift.md: AND, OR, XOR and NOT (O36) write their result bit by bit; SHL (O37) and SHR (O38)
shift by the whole 32-bit amount. -/

namespace Sys2Proof.Machine

/-! ### The bitwise results -/

/-- Settles O36: each of the four writes one register, and the word operation acts on each bit alone. -/
theorem bitwiseResultsBitByBit : Obligations.BitwiseResultsBitByBit := by
  intro r1 r2 s
  refine ⟨?and, ?or, ?xor, ?not⟩
  case and =>
    obtain ⟨t, ht, hw⟩ := binaryOp_spec (· &&& ·) r1 r2 s
    exact ⟨t, _, ht, hw, fun _ _ => BitVec.getLsbD_and⟩
  case or =>
    obtain ⟨t, ht, hw⟩ := binaryOp_spec (· ||| ·) r1 r2 s
    exact ⟨t, _, ht, hw, fun _ _ => BitVec.getLsbD_or⟩
  case xor =>
    obtain ⟨t, ht, hw⟩ := binaryOp_spec (· ^^^ ·) r1 r2 s
    exact ⟨t, _, ht, hw, fun _ _ => BitVec.getLsbD_xor⟩
  case not =>
    obtain ⟨t, ht, hw⟩ := unaryOp_spec (~~~ ·) r1 s
    exact ⟨t, _, ht, hw, fun k hk => by rw [BitVec.getLsbD_not, decide_eq_true hk, Bool.true_and]⟩

/-! ### The shifts by the whole amount -/

section Shifts

variable (v amount : Word)

/-- From 32 on every bit has left the word, so the zero branch agrees with the shift by the whole amount (R136). -/
theorem shiftLeft_eq : shiftLeft v amount = v <<< amount.toNat := by
  unfold shiftLeft
  split
  · next h => exact (BitVec.shiftLeft_eq_zero h).symm
  · rfl

/-- The same for the logical shift to the right (R136). -/
theorem shiftRight_eq : shiftRight v amount = v >>> amount.toNat := by
  unfold shiftRight
  split
  · next h => exact (BitVec.ushiftRight_eq_zero h).symm
  · rfl

/-- A left shift multiplies by the power of two, modulo 2^32 (R134). -/
theorem shiftLeft_toNat : (shiftLeft v amount).toNat = (v.toNat * 2 ^ amount.toNat) % 2 ^ 32 := by
  rw [shiftLeft_eq, BitVec.toNat_shiftLeft, Nat.shiftLeft_eq]

/-- A logical right shift divides by the power of two, rounding down (R135). -/
theorem shiftRight_toNat : (shiftRight v amount).toNat = v.toNat / 2 ^ amount.toNat := by
  rw [shiftRight_eq, BitVec.toNat_ushiftRight, Nat.shiftRight_eq_div_pow]

end Shifts

/-- Settles O37: the value of the left shift for every amount; from 32 on it is the branch that answers 0. -/
theorem shiftLeftByTheWholeAmount : Obligations.ShiftLeftByTheWholeAmount := by
  intro r1 r2 s
  obtain ⟨t, ht, hw⟩ := binaryOp_spec shiftLeft r1 r2 s
  exact ⟨t, _, ht, hw, shiftLeft_toNat _ _, fun hge => if_pos hge⟩

/-- Settles O38: the value of the right shift for every amount; from 32 on it is the branch that answers 0. -/
theorem shiftRightIsLogicalByTheWholeAmount : Obligations.ShiftRightIsLogicalByTheWholeAmount := by
  intro r1 r2 s
  obtain ⟨t, ht, hw⟩ := binaryOp_spec shiftRight r1 r2 s
  exact ⟨t, _, ht, hw, shiftRight_toNat _ _, fun hge => if_pos hge⟩

end Sys2Proof.Machine

/-! The family 44_compare.md: CMP orders its operands as unsigned words by Z and O (O40), while JE, JG and JL after it
follow Z and N, so the wrapped difference (O47). -/

namespace Sys2Proof.Machine

/-! ### The flags as facts about numbers -/

section Operands

variable (a b : Word)

/-- In the default mode O is the unsigned borrow (R150). -/
theorem subOverflow_default_iff : subOverflow cmpOverflowMode a b = true ↔ a.toNat < b.toNat :=
  decide_eq_true_iff

/-- The wrapped difference is 0, and Z set, only for equal operands (R150). -/
theorem sub_beq_zero_iff : (a - b == 0) = true ↔ a.toNat = b.toNat := by
  rw [beq_iff_eq, sub_eq_zero, BitVec.toNat_eq]

end Operands

section Difference

variable (d : Word)

theorem beq_zero_iff_toNat : (d == 0) = true ↔ d.toNat = 0 :=
  beq_iff_eq.trans BitVec.toNat_eq

/-- The sign bit parts the words at 0x80000000. -/
theorem msb_iff_toNat_ge : d.msb = true ↔ 0x80000000 ≤ d.toNat := by
  rw [BitVec.msb_eq_true_iff_two_mul_ge]
  omega

/-- Where Z and N are both clear the difference is positive and below the sign bit (R163). -/
theorem not_beq_zero_and_not_msb_iff_toNat :
    (!(d == 0) && !d.msb) = true ↔ 1 ≤ d.toNat ∧ d.toNat ≤ 0x7FFFFFFF := by
  rw [Bool.and_eq_true, Bool.not_eq_true', Bool.not_eq_true', ← Bool.not_eq_true, ← Bool.not_eq_true,
    beq_zero_iff_toNat, msb_iff_toNat_ge]
  omega

end Difference

/-- Settles O40: O is the unsigned borrow and Z is equality, and the order of the naturals is total. -/
theorem compareOrdersUnsigned : Obligations.CompareOrdersUnsigned := by
  intro r1 r2 s
  obtain ⟨hz, -, ho⟩ := flags_of_compare s cmpOverflowMode (s.x r1) (s.x r2)
  refine ⟨_, rfl, ?_, ?_⟩
  · rw [ho, subOverflow_default_iff]
  · rw [hz, ho, ← Bool.not_eq_true, ← Bool.not_eq_true, sub_beq_zero_iff, subOverflow_default_iff]
    omega

/-! ### The jumps after CMP -/

/-- From a pc other than the target, pc at the target tells that the jump was taken (R165). -/
theorem jumpIf_pc_iff (c : Bool) {r : Reg} {s : State} (h : s.pc ≠ s.x r) :
    ∃ t, jumpIf c r s = .next t ∧ (t.pc = s.x r ↔ c = true) := by
  obtain ⟨t, ht, hpc, -⟩ := jumpIf_spec c r s
  refine ⟨t, ht, hpc ▸ ?_⟩
  cases c
  · simpa using h
  · simp

/-- Where Z and N are those of a difference, its value alone decides JE, JG and JL (R161, R163, R164). -/
theorem jumps_pc_iff_of_difference {u : State} {d : Word} {j : Reg} (a : Reg) (hz : u.flagZ = (d == 0))
    (hn : u.flagN = d.msb) (hpc : u.pc ≠ u.x j) :
    ∃ e g l, exec (.je j a) u = .next e ∧ exec (.jg j a) u = .next g ∧ exec (.jl j a) u = .next l ∧
      (e.pc = u.x j ↔ d.toNat = 0) ∧ (g.pc = u.x j ↔ 1 ≤ d.toNat ∧ d.toNat ≤ 0x7FFFFFFF) ∧
      (l.pc = u.x j ↔ 0x80000000 ≤ d.toNat) := by
  obtain ⟨e, he, hje⟩ := jumpIf_pc_iff u.flagZ hpc
  obtain ⟨g, hg, hjg⟩ := jumpIf_pc_iff (!u.flagZ && !u.flagN) hpc
  obtain ⟨l, hl, hjl⟩ := jumpIf_pc_iff u.flagN hpc
  rw [hz, beq_zero_iff_toNat] at hje
  rw [hz, hn, not_beq_zero_and_not_msb_iff_toNat] at hjg
  rw [hn, msb_iff_toNat_ge] at hjl
  exact ⟨e, g, l, he, hg, hl, hje, hjg, hjl⟩

/-- Settles O47: CMP leaves Z and N of the wrapped difference, and setting pc changes neither. -/
theorem afterCompareExactlyOneJumpIsTaken : Obligations.AfterCompareExactlyOneJumpIsTaken := by
  rintro r1 r2 j a s t u pc diff ht rfl hpc hdiff
  obtain rfl : diff = (s.x r1 - s.x r2).toNat := by exact_mod_cast hdiff.trans (toNat_sub_eq_emod _ _).symm
  cases ht
  obtain ⟨hz, hn, -⟩ := flags_of_compare s cmpOverflowMode (s.x r1) (s.x r2)
  exact jumps_pc_iff_of_difference a hz hn hpc

end Sys2Proof.Machine

/-! The family 45_control.md: which flag bits each jump reads (O41, O43 to O46). That a jump changes nothing but pc
is `jumpIf_spec`. -/

namespace Sys2Proof.Machine

/-- A jump under a condition that holds exactly where `taken` does (R165). -/
theorem jumpIf_spec_of_iff {c : Bool} {taken : Prop} [Decidable taken] (h : c = true ↔ taken) (r1 : Reg)
    (s : State) :
    ∃ t, jumpIf c r1 s = .next t ∧ JumpsOnly (if taken then s.x r1 else s.pc) s t := by
  simpa only [h] using jumpIf_spec c r1 s

/-! ### The conditions of the jumps as bits of the flags byte (R24) -/

section Conditions

variable (s : State)

theorem flagZ_iff : s.flagZ = true ↔ s.flags.getLsbD 0 = true := .rfl

theorem flagN_iff : s.flagN = true ↔ s.flags.getLsbD 1 = true := .rfl

theorem not_flagZ_iff : (!s.flagZ) = true ↔ s.flags.getLsbD 0 = false :=
  .of_eq (Bool.not_eq_true' _)

theorem not_flagN_iff : (!s.flagN) = true ↔ s.flags.getLsbD 1 = false :=
  .of_eq (Bool.not_eq_true' _)

theorem not_flagZ_and_not_flagN_iff :
    (!s.flagZ && !s.flagN) = true ↔ s.flags.getLsbD 0 = false ∧ s.flags.getLsbD 1 = false := by
  rw [Bool.and_eq_true, not_flagZ_iff, not_flagN_iff]

end Conditions

/-! ### The five jumps -/

/-- Settles O41: JMP is the jump whose condition always holds. -/
theorem jumpLoadsTheWholeRegister : Obligations.JumpLoadsTheWholeRegister :=
  fun r1 _ s => jumpIf_spec true r1 s

/-- Settles O43: JE's condition is Z. -/
theorem jumpIfEqualReadsZ : Obligations.JumpIfEqualReadsZ :=
  fun r1 _ s => jumpIf_spec_of_iff (flagZ_iff s) r1 s

/-- Settles O44: JNE's condition is the complement of Z. -/
theorem jumpIfNotEqualReadsZ : Obligations.JumpIfNotEqualReadsZ :=
  fun r1 _ s => jumpIf_spec_of_iff (not_flagZ_iff s) r1 s

/-- Settles O45: JG's condition is the complements of Z and of N together. -/
theorem jumpIfGreaterReadsZAndN : Obligations.JumpIfGreaterReadsZAndN :=
  fun r1 _ s => jumpIf_spec_of_iff (not_flagZ_and_not_flagN_iff s) r1 s

/-- Settles O46: JL's condition is N. -/
theorem jumpIfLessReadsN : Obligations.JumpIfLessReadsN :=
  fun r1 _ s => jumpIf_spec_of_iff (flagN_iff s) r1 s

end Sys2Proof.Machine

/-! The family 46_halt.md: HALT's effect and the run it ends (O49). -/

namespace Sys2Proof.Machine

/-- A run from the state HALT leaves makes no step, and its report is that of the state HALT met (R180, R235). -/
theorem runUnder_setHalted (p : Params) (k : Nat) (s : State) :
    runUnder p k (s.setHalted true) = .halted (s.setHalted true) s.report :=
  runUnder_of_halted (s.setHalted_halted true) k

/-- Settles O49: HALT leaves `setHalted true`, which keeps every other field and from which no run goes on. -/
theorem haltStopsTheEngine : Obligations.HaltStopsTheEngine :=
  fun _ _ s => ⟨s.setHalted true, rfl, s.setHalted_halted true, s.setHalted_x true, s.setHalted_pc true,
    s.setHalted_flags true, fun a => congrArg (readByte · a) (s.setHalted_mem true),
    ⟨s.setHalted_device true, s.setHalted_trace true⟩, fun k => runUnder_setHalted defaultParams k s⟩

end Sys2Proof.Machine

/-! The families 60_exceptions.md and 70_reset_and_hazards.md: the faults of the handlers (O11), what reset leaves
(O13), run() on a halted engine (O50), and what leads out of a fault (O51) and out of HALTED (O52). -/

namespace Sys2Proof.Machine

/-! ### The faults of the handlers -/

/-- Settles O11: by the inversion of a faulting handler, which runs with pc = ia + 3. -/
theorem onlyDivLoadStoreHandlersFault : Obligations.OnlyDivLoadStoreHandlersFault := by
  intro i s f ia hpc h
  rw [← handlerIa_eq_of_pc hpc]
  rcases exec_fault_cases h with hdiv | ⟨r1, r2, hi, hbound, hf⟩
  · exact .inl hdiv
  · have hM : Config.memSize = 65536 := rfl
    exact .inr ⟨r1, r2, hi, by omega, hf⟩

/-! ### Reset -/

/-- After construction every byte of the 65536 reads 0 (R28, R230). -/
theorem readByte_construct (d : Device) {a : Word} (h : a.toNat < Config.memSize) :
    readByte (construct d).mem a = some 0 :=
  readByte_eq_some.mpr ⟨h, Memory.get_nil a.toNat⟩

/-- Settles O13: the reset state is the one constructed with the free device, so construction has all the values. -/
theorem resetLeavesTheStatedValues : Obligations.ResetLeavesTheStatedValues := by
  intro d s hs
  obtain ⟨d', rfl⟩ : ∃ d', s = construct d' := hs.elim (⟨d, ·⟩) (⟨.free, ·⟩)
  exact ⟨State.reset_x, rfl, rfl, rfl, fun _ => readByte_construct d', rfl, congrArg State.device⟩

/-! ### run() on a halted engine -/

/-- Settles O50: a run from a halted state makes no turn. -/
theorem runOnHaltedEngineIsNoOp : Obligations.RunOnHaltedEngineIsNoOp :=
  fun _ k _ h => runUnder_of_halted h k

/-! ### What is done to an engine without a run -/

/-- What the owner or the device may do to an engine besides running and reinitialising it: a load, a harness's
setup of the registers or of a byte, an answer. -/
def Engine.ChangesTo (e n : Engine) : Prop :=
  (∃ image, e.loadProgram image = some n) ∨
  (∃ regs pc z n' o, e.setRegisters regs pc z n' o = some n) ∨
  (∃ a v, e.writeMemory a v = some n) ∨ (∃ v, n = e.answer v)

/-- A load that is accepted leaves halted as it was (R232). -/
theorem loadProgram_halted {image : List Byte} {s t : State} (h : loadProgram image s = some t) :
    t.halted = s.halted := by
  unfold loadProgram at h
  split at h <;> cases h
  rfl

/-- Each such change is made to the state alone, and leaves halted as it was: the engine is still idle, or faulted
with the same fault (R231, R232, R236). -/
theorem Engine.ChangesTo.eq_of_no_run {e n : Engine} {s : State} {phaseAt : State → Phase}
    (hn : e.ChangesTo n) (hp : phaseAt = .idle ∨ ∃ f, phaseAt = .faulted f) (h : e.phase = phaseAt s) :
    ∃ t, n = ⟨e.params, phaseAt t⟩ ∧ t.halted = s.halted := by
  rcases hn with ⟨image, hload⟩ | ⟨regs, pc, z, n', o, hset⟩ | ⟨a, v, hwrite⟩ | ⟨v, rfl⟩
  · rw [Engine.loadProgram_of_no_run hp h, Option.map_eq_some_iff] at hload
    obtain ⟨t, ht, rfl⟩ := hload
    exact ⟨t, rfl, loadProgram_halted ht⟩
  · rw [Engine.setRegisters_of_no_run hp h] at hset
    cases hset
    exact ⟨_, rfl, rfl⟩
  · rw [Engine.writeMemory_of_no_run hp h, Option.map_eq_some_iff] at hwrite
    obtain ⟨m, -, rfl⟩ := hwrite
    exact ⟨s.setMem m, rfl, s.setMem_halted m⟩
  · exact ⟨supplyAnswer v s, Engine.answer_eq (hp.imp_right .inr) h v, supplyAnswer_halted v s⟩

/-! ### Out of a fault -/

theorem stateLeftByFault_halted (s : State) : (stateLeftByFault s).halted = s.halted := by
  obtain ⟨v, hv, -⟩ := stateLeftByFault_eq_setPc s
  rw [hv, State.setPc_halted]

/-- A faulted engine has no run and none that goes on (R207, R236). -/
theorem Engine.no_run_of_faulted {e : Engine} {f : Fault} {left : State} (h : e.phase = .faulted f left) (j : Nat) :
    e.run j = none ∧ e.proceed j = none := by
  simp only [Engine.run, Engine.proceed, h, and_self]

/-- Settles O51: the turn that faults ends the run, every change keeps the faulted phase, and only construction
gives a run again. -/
theorem faultEndsTheRun : Obligations.FaultEndsTheRun := by
  refine ⟨fun e s f _ hh hstep k => ?_, fun e f left h => ⟨Engine.no_run_of_faulted h, fun n hn => ?_, fun d => ?_⟩⟩
  · have hrun : runUnder e.params (k + 1) s = .faulted f (stateLeftByFault s) := runUnder_succ_of_fault hstep k
    refine ⟨⟨e.params, .faulted f (stateLeftByFault s)⟩, fun hidle => ?_, fun hactive => ?_,
      (stateLeftByFault_halted s).trans hh, rfl, rfl⟩
    · rw [Engine.run_of_idle hidle, hrun, RunEnd.phase]
    · rw [Engine.proceed_of_active hactive, hrun, RunEnd.phase]
  · obtain ⟨t, rfl, -⟩ := Engine.ChangesTo.eq_of_no_run hn (.inr ⟨f, rfl⟩) h
    exact ⟨rfl, t, rfl, Engine.no_run_of_faulted rfl⟩
  · exact ⟨Engine.reinitialise_of_no_run (.inr ⟨f, rfl⟩) h d, rfl, fun j => ⟨_, Engine.run_of_idle rfl j⟩⟩

/-! ### Out of HALTED -/

/-- run() on a halted engine reports again and leaves the engine as it is (R235). -/
theorem Engine.run_of_halted {e : Engine} {s : State} (h : e.phase = .idle s) (hh : s.halted = true) (k : Nat) :
    e.run k = some (.halted s s.report, e) := by
  rw [Engine.run_of_idle h, runUnder_of_halted hh, RunEnd.phase, ← h]

/-- Settles O52: run() and every change keep halted, and construction clears it. -/
theorem onlyReinitialisingLeavesHalted : Obligations.OnlyReinitialisingLeavesHalted := by
  intro e s h hh
  refine ⟨Engine.run_of_halted h hh, fun k => by simp only [Engine.proceed, h], fun n hn => ?_, fun d => ?_⟩
  · obtain ⟨t, rfl, ht⟩ := Engine.ChangesTo.eq_of_no_run hn (.inl rfl) h
    exact ⟨rfl, t, rfl, ht.trans hh⟩
  · exact ⟨_, construct d, Engine.reinitialise_of_no_run (.inl rfl) h d, rfl, rfl, rfl⟩

end Sys2Proof.Machine
